-- ==== Sys2Proof/Word.lean ====
section
/-! DEFINITION. The word types of the engine (00_scope.md R11, R12, R13). -/

namespace Sys2Proof

/-- One byte of a payload, of CBUF or of STATUS. -/
abbrev Byte := BitVec 8

/-- A 16-bit register address or PLL field. -/
abbrev Half := BitVec 16

/-- A 32-bit operand, result or counter; also a binary32 pattern. -/
abbrev Word := BitVec 32

/-- A 7-bit I2C device address. -/
abbrev DevAddr := BitVec 7

/-- The 72-bit command word of 30_encoding.md R70. -/
abbrev Command := BitVec 72

end Sys2Proof
end

