-- ==== Sys2Proof/Config.lean ====
section
/-! DEFINITION. What one engine fixes: the constants of 00_scope.md R8 and R9, the parameters of R10 as plain data, what
crosses the transport port, and the free values, which are constants without a body. -/

namespace Sys2Proof

/-- How the gain formulas are evaluated: the parameter GAIN_EVAL of 42_gain.md R166. -/
inductive GainEval where
  /-- EXACT: on the exact value of the operand. -/
  | exactReal
  /-- F32: in binary32 arithmetic, round to nearest, ties to even. -/
  | binary32
deriving DecidableEq, Repr

/-- The parameters a model takes as arguments, 00_scope.md R10 (DEV_ADDR apart, which is a register). -/
structure Params where
  /-- PLL_ADDR -/
  pllAddr : Half
  /-- PLL_STATUS_ADDR -/
  pllStatusAddr : Half
  /-- FIN_MAX, in hertz -/
  finMax : Nat
  /-- GAIN_EVAL -/
  gainEval : GainEval
  /-- LINE_IN_L -/
  lineInL : Half
  /-- LINE_IN_R -/
  lineInR : Half
  /-- AUX_IN_L -/
  auxInL : Half
  /-- AUX_IN_R -/
  auxInR : Half
  /-- LINE_OUT_L -/
  lineOutL : Half
  /-- LINE_OUT_R -/
  lineOutR : Half
  /-- HP_OUT_L -/
  hpOutL : Half
  /-- HP_OUT_R -/
  hpOutR : Half
  /-- CLKCTL_ADDR -/
  clkctlAddr : Half
  /-- CLKCTL_DISABLE -/
  clkctlDisable : Byte
  /-- PLL_DISABLE_PATTERN, six bytes -/
  pllDisable : List Byte
  /-- SRC_WRITES, as the pairs of a sample rate and its Register Commands; a rate not listed has none -/
  srcWrites : List (Nat × List (List Byte))
  /-- CBUF_SIZE, in bytes -/
  cbufSize : Nat
  /-- TABLE_ROW_BYTES -/
  tableRowBytes : Nat
deriving DecidableEq, Repr

/-- The defaults of 00_scope.md R10. Those from LINE_IN_L to PLL_DISABLE_PATTERN are the spec's general-knowledge defaults
(93_implementation_defined.md G1 to G7): a claim that depends on one names `Params.default` as a premise. -/
def Params.default : Params where
  pllAddr := 0x4002#16
  pllStatusAddr := 0x4002#16
  finMax := 14000000
  gainEval := .exactReal
  lineInL := 0x400A#16
  lineInR := 0x400C#16
  auxInL := 0x400B#16
  auxInR := 0x400D#16
  lineOutL := 0x4025#16
  lineOutR := 0x4026#16
  hpOutL := 0x4023#16
  hpOutR := 0x4024#16
  clkctlAddr := 0x4000#16
  clkctlDisable := 0x00#8
  pllDisable := [0x00#8, 0xFD#8, 0x00#8, 0x0C#8, 0x10#8, 0x00#8]
  srcWrites := []
  cbufSize := 256
  tableRowBytes := 3

namespace Config

/-- FS_SET_48, in hertz (00_scope.md R9). -/
def fsSet48 : List Nat := [8000, 16000, 24000, 32000, 48000, 96000]

/-- FS_SET_441, in hertz (00_scope.md R9). -/
def fsSet441 : List Nat := [11025, 22050, 44100, 88200]

/-- MCLK_SET, in hertz (00_scope.md R9). -/
def mclkSet : List Nat :=
  [8000000, 12000000, 12288000, 13000000, 14400000, 19200000, 19680000, 19800000, 24000000, 24576000, 26000000, 27000000]

/-- F_TARGET_48 = 1024 × 48000 Hz (00_scope.md R8). -/
def fTarget48 : Nat := 49152000

/-- F_TARGET_441 = 1024 × 44100 Hz (00_scope.md R8). -/
def fTarget441 : Nat := 45158400

/-- M_MAX, the largest denominator of the search (00_scope.md R8). -/
def mMax : Nat := 8191

/-- STATUS_READ_LEN (00_scope.md R8). -/
def statusReadLen : Nat := 6

/-- LOCK_BYTE: the index of the sixth byte (00_scope.md R8). -/
def lockByte : Nat := 5

/-- LOCK_BIT (00_scope.md R8). -/
def lockBit : Nat := 1

end Config

/-- A transport call the engine makes: the two calls of 20_memory.md R41 and R42. -/
inductive BusCall where
  /-- `BusWrite(dev, bytes, no_stop)` -/
  | write (dev : DevAddr) (bytes : List Byte) (noStop : Bool)
  /-- `BusRead(dev, n, no_stop)` -/
  | read (dev : DevAddr) (n : Nat) (noStop : Bool)
deriving DecidableEq, Repr

/-- An event of the bus history H: a call with the responder's whole answer (10_state.md R30, 20_memory.md R62). -/
inductive BusEvent where
  /-- `W(dev, bytes, no_stop, ret)` -/
  | write (dev : DevAddr) (bytes : List Byte) (noStop : Bool) (ret : Word)
  /-- `R(dev, n, no_stop, ret, data)` -/
  | read (dev : DevAddr) (n : Nat) (noStop : Bool) (ret : Word) (data : List Byte)
deriving DecidableEq, Repr

namespace Config

/-- The DEV_ADDR strap at power-up: OPEN (10_state.md R21, D33), so no value is given. Log entry 3. -/
opaque devAddrStrap : DevAddr

/-- The abstract name of the transport the engine is wired to (10_state.md R21). Log entry 4. -/
opaque wiredTransport : Nat

/-- The responder's return value of a write: any i32 (20_memory.md R41, R44). It may depend on the draw, the transport, the
whole bus history and the call. Log entry 6. -/
opaque writeAnswer (seed transport : Nat) (hist : List BusEvent) (dev : DevAddr) (bytes : List Byte) (noStop : Bool) : Word

/-- The responder's return value of a read: any i32 (20_memory.md R42, R44). Log entry 6. -/
opaque readAnswer (seed transport : Nat) (hist : List BusEvent) (dev : DevAddr) (n : Nat) (noStop : Bool) : Word

/-- Byte `i` of the buffer after a read, transferred or not: any byte (20_memory.md R42, R44, 41_pll.md R147). Log entry 6. -/
opaque readByte (seed transport : Nat) (hist : List BusEvent) (dev : DevAddr) (n : Nat) (noStop : Bool) (i : Nat) : Byte

/-- What CBUF holds at an address nothing has written since reset: unspecified (10_state.md R32, 20_memory.md R50). Log entry 5. -/
opaque unwrittenByte (seed address : Nat) : Byte

/-- The draw counter after a reset: the responder is not reset (70_reset_and_hazards.md R240), so what it answers next may
depend on everything the reset forgets. Log entry 7. -/
opaque seedAfterReset (seed : Nat) (hist : List BusEvent) : Nat

end Config

end Sys2Proof
end

