-- ==== Sys2Proof/Syntax.lean ====
section
/-! DEFINITION. The twelve operations of 30_encoding.md R72, with the operands of R73 to R77 in the order of R81. -/

namespace Sys2Proof

/-- One operation of the engine, one constructor per row of the opcode table. -/
inductive Instr where
  /-- SEND offset, length (40_sequencer.md R101) -/
  | send (offset length : Word)
  /-- SENDTBL base, row_count (40_sequencer.md R103) -/
  | sendTbl (base rowCount : Word)
  /-- PROBE addr (40_sequencer.md R107); `addr` is operand A whole, of which 30_encoding.md R76 requires A[31:7] = 0 -/
  | probe (addr : Word)
  /-- CFGPLL fs, mclock (41_pll.md R136) -/
  | cfgPll (fs mclock : Word)
  /-- WAITLOCK (41_pll.md R145) -/
  | waitLock
  /-- SETLIG left_db, right_db, mute (42_gain.md R174) -/
  | setLig (left right : Word) (mute : Bool)
  /-- SETAXG left_db, right_db, mute (42_gain.md R175) -/
  | setAxg (left right : Word) (mute : Bool)
  /-- SETLOG left_db, right_db, mute (42_gain.md R176) -/
  | setLog (left right : Word) (mute : Bool)
  /-- SETHPG left_db, right_db, mute (42_gain.md R177) -/
  | setHpg (left right : Word) (mute : Bool)
  /-- INITCORE (43_core_src.md R190) -/
  | initCore
  /-- DISPLL (43_core_src.md R191) -/
  | disPll
  /-- CFGSRC fs (43_core_src.md R192) -/
  | cfgSrc (fs : Word)
deriving DecidableEq, Repr

end Sys2Proof
end

