-- ==== Sys2Proof/WellFormed.lean ====
section
/-! DEFINITION. Which instructions have an encoding, and which parameter records 00_scope.md R10 admits. -/

namespace Sys2Proof

/-- An instruction is well formed when its operands fit its format: only PROBE has a limit, A[31:7] = 0
(30_encoding.md R73, R76). -/
def Instr.wf : Instr → Bool
  | .send _ _ => true
  | .sendTbl _ _ => true
  | .probe addr => decide (addr.toNat < 128)
  | .cfgPll _ _ => true
  | .waitLock => true
  | .setLig _ _ _ => true
  | .setAxg _ _ _ => true
  | .setLog _ _ _ => true
  | .setHpg _ _ _ => true
  | .initCore => true
  | .disPll => true
  | .cfgSrc _ => true

/-- PLL_DISABLE_PATTERN is six bytes whose last has bit 0 clear, since it "powers the PLL down" (43_core_src.md R191). -/
def Params.disableWf (p : Params) : Bool :=
  p.pllDisable.length == 6 && (p.pllDisable.drop 5).all (fun b => !b.getLsbD 0)

/-- TABLE_ROW_BYTES is an integer ≥ 3 (00_scope.md R10). -/
def Params.rowWf (p : Params) : Bool := decide (3 ≤ p.tableRowBytes)

/-- SRC_WRITES gives, for valid sample rates only, Register Commands of at least 3 bytes (43_core_src.md R193). -/
def Params.srcWf (p : Params) : Bool :=
  p.srcWrites.all (fun e =>
    (Config.fsSet48.contains e.1 || Config.fsSet441.contains e.1) && e.2.all (fun c => decide (3 ≤ c.length)))

/-- A parameter record the spec admits. -/
def Params.wf (p : Params) : Bool := p.disableWf && p.rowWf && p.srcWf

end Sys2Proof
end

