-- ==== Sys2Proof/Decode.lean ====
section
/-! DEFINITION. The command word: fields, decoder, encoder, serialisation and the opcode table (30_encoding.md R70 to R80). -/

namespace Sys2Proof

/-- `cmd[71:64]`, the opcode byte OPC = {RSV, M, OP} (30_encoding.md R70). -/
def Command.opc (w : Command) : Byte := w.extractLsb' 64 8

/-- `cmd[63:32]`, operand A (30_encoding.md R70). -/
def Command.opa (w : Command) : Word := w.extractLsb' 32 32

/-- `cmd[31:0]`, operand B (30_encoding.md R70). -/
def Command.opb (w : Command) : Word := w.extractLsb' 0 32

/-- The command word with the given OPC, A and B (30_encoding.md R70). -/
def Command.ofFields (opc : Byte) (a b : Word) : Command :=
  BitVec.ofNat 72 (opc.toNat * 2 ^ 64 + a.toNat * 2 ^ 32 + b.toNat)

/-- RSV, bits 7:5 of OPC. -/
def opcRsv (opc : Byte) : BitVec 3 := opc.extractLsb' 5 3

/-- M, bit 4 of OPC: the mute modifier (30_encoding.md R77). -/
def opcMute (opc : Byte) : Bool := opc.getLsbD 4

/-- OP, bits 3:0 of OPC. -/
def opcOp (opc : Byte) : BitVec 4 := opc.extractLsb' 0 4

/-- The operation that OP, M, A and B select when RSV = 0, with the must-be-zero fields of 30_encoding.md R73 checked; nothing
for the values 0x0 and 0xD to 0xF of OP (R78). -/
def decodeOp (mute : Bool) (a b : Word) : Nat → Option Instr
  | 0x1 => if mute then none else some (.send a b)
  | 0x2 => if mute then none else some (.sendTbl a b)
  | 0x3 => if mute || decide (128 ≤ a.toNat) || b != 0#32 then none else some (.probe a)
  | 0x4 => if mute then none else some (.cfgPll a b)
  | 0x5 => if mute || a != 0#32 || b != 0#32 then none else some .waitLock
  | 0x6 => some (.setLig a b mute)
  | 0x7 => some (.setAxg a b mute)
  | 0x8 => some (.setLog a b mute)
  | 0x9 => some (.setHpg a b mute)
  | 0xA => if mute || a != 0#32 || b != 0#32 then none else some .initCore
  | 0xB => if mute || a != 0#32 || b != 0#32 then none else some .disPll
  | 0xC => if mute || b != 0#32 then none else some (.cfgSrc a)
  | _ => none

/-- The decoder on the three fields of a command, as the engine applies it to its latches (30_encoding.md R78, R79). -/
def decodeFields (opc : Byte) (a b : Word) : Option Instr :=
  if opcRsv opc = 0#3 then decodeOp (opcMute opc) a b (opcOp opc).toNat else none

/-- The decoder on a command word: total, and `none` exactly for an illegal word (30_encoding.md R79). -/
def decode (w : Command) : Option Instr := decodeFields w.opc w.opa w.opb

/-- OPC of an operation without the mute modifier, {000, 0, OP}. -/
def plainOpc (op : BitVec 4) : Byte := op.setWidth 8

/-- OPC of a gain operation, {000, mute, OP} (30_encoding.md R73, format G). -/
def gainOpc (op : BitVec 4) (mute : Bool) : Byte := op.setWidth 8 ||| (if mute then 0x10#8 else 0x00#8)

/-- The encoder: the command word of an instruction by the rows of 30_encoding.md R72 and the formats of R73. -/
def encode : Instr → Command
  | .send offset length => .ofFields (plainOpc 0x1#4) offset length
  | .sendTbl base rowCount => .ofFields (plainOpc 0x2#4) base rowCount
  | .probe addr => .ofFields (plainOpc 0x3#4) addr 0#32
  | .cfgPll fs mclock => .ofFields (plainOpc 0x4#4) fs mclock
  | .waitLock => .ofFields (plainOpc 0x5#4) 0#32 0#32
  | .setLig left right mute => .ofFields (gainOpc 0x6#4 mute) left right
  | .setAxg left right mute => .ofFields (gainOpc 0x7#4 mute) left right
  | .setLog left right mute => .ofFields (gainOpc 0x8#4 mute) left right
  | .setHpg left right mute => .ofFields (gainOpc 0x9#4 mute) left right
  | .initCore => .ofFields (plainOpc 0xA#4) 0#32 0#32
  | .disPll => .ofFields (plainOpc 0xB#4) 0#32 0#32
  | .cfgSrc fs => .ofFields (plainOpc 0xC#4) fs 0#32

/-- Serialisation, most significant byte first: byte i is `cmd[71-8i : 64-8i]` (30_encoding.md R71). -/
def Command.toBytes (w : Command) : List Byte := (List.range 9).map (fun i => w.extractLsb' (64 - 8 * i) 8)

/-- The big-endian number a byte sequence spells. -/
def bigEndian : List Byte → Nat → Nat
  | [], acc => acc
  | b :: bs, acc => bigEndian bs (acc * 256 + b.toNat)

/-- The decoder on a serialised command: nine bytes, or nothing (30_encoding.md R71, R80). -/
def decodeBytes (bs : List Byte) : Option Instr :=
  if bs.length = 9 then decode (BitVec.ofNat 72 (bigEndian bs 0)) else none

/-- What the decoder reads from an instruction of `nbits` bits `w`, numbered as the opcode table numbers them: one 72-bit word,
bit 0 the least significant bit of operand B. The word is laid out as its nine bytes and those are decoded. -/
def decodeTableWord (nbits w : Nat) : Option Instr :=
  if nbits ≤ 72 then decodeBytes (Command.toBytes (BitVec.ofNat 72 (w % 2 ^ nbits))) else none

/-- One row of the opcode table of 30_encoding.md R72. -/
structure OpcodeRow where
  mnemonic : String
  matchBits : Command
  mask : Command
deriving DecidableEq, Repr

/-- A word selects a row when `w & mask = match` (30_encoding.md R72). -/
def OpcodeRow.selects (r : OpcodeRow) (w : Command) : Bool := (w &&& r.mask) == r.matchBits

/-- The opcode table of 30_encoding.md R72. -/
def opcodeRows : List OpcodeRow :=
  [ ⟨"SEND", 0x010000000000000000#72, 0xFF0000000000000000#72⟩,
    ⟨"SENDTBL", 0x020000000000000000#72, 0xFF0000000000000000#72⟩,
    ⟨"PROBE", 0x030000000000000000#72, 0xFFFFFFFF80FFFFFFFF#72⟩,
    ⟨"CFGPLL", 0x040000000000000000#72, 0xFF0000000000000000#72⟩,
    ⟨"WAITLOCK", 0x050000000000000000#72, 0xFFFFFFFFFFFFFFFFFF#72⟩,
    ⟨"SETLIG", 0x060000000000000000#72, 0xEF0000000000000000#72⟩,
    ⟨"SETAXG", 0x070000000000000000#72, 0xEF0000000000000000#72⟩,
    ⟨"SETLOG", 0x080000000000000000#72, 0xEF0000000000000000#72⟩,
    ⟨"SETHPG", 0x090000000000000000#72, 0xEF0000000000000000#72⟩,
    ⟨"INITCORE", 0x0A0000000000000000#72, 0xFFFFFFFFFFFFFFFFFF#72⟩,
    ⟨"DISPLL", 0x0B0000000000000000#72, 0xFFFFFFFFFFFFFFFFFF#72⟩,
    ⟨"CFGSRC", 0x0C0000000000000000#72, 0xFF00000000FFFFFFFF#72⟩ ]

/-- The mnemonic of an instruction (30_encoding.md R72). -/
def Instr.mnemonic : Instr → String
  | .send _ _ => "SEND"
  | .sendTbl _ _ => "SENDTBL"
  | .probe _ => "PROBE"
  | .cfgPll _ _ => "CFGPLL"
  | .waitLock => "WAITLOCK"
  | .setLig _ _ _ => "SETLIG"
  | .setAxg _ _ _ => "SETAXG"
  | .setLog _ _ _ => "SETLOG"
  | .setHpg _ _ _ => "SETHPG"
  | .initCore => "INITCORE"
  | .disPll => "DISPLL"
  | .cfgSrc _ => "CFGSRC"

end Sys2Proof
end

