-- ==== Sys2Proof/Machine/State.lean ====
section
/-! DEFINITION. The state of the machine (10_state.md R20), the reasons a step can stop, and the state after reset (R32). -/

namespace Sys2Proof.Machine

/-- CBUF as the pairs of an address and the byte the host last wrote there since reset; a byte nothing has written is not
listed (10_state.md R28, R32). -/
abbrev Memory := List Host.Cell

/-- The form of a memory: addresses strictly rising. No listed byte can equal what an unlisted address reads as, because an
unlisted address has no value of its own (log entry 5). -/
def Memory.wf : Memory → Bool
  | [] => true
  | [_] => true
  | c :: d :: m => decide (c.1 < d.1) && Memory.wf (d :: m)

/-- A move of the host at its port (70_reset_and_hazards.md R248). -/
inductive HostMove where
  /-- issue a command word (30_encoding.md R70) -/
  | issue (w : Command)
  /-- write one byte of CBUF (10_state.md R28) -/
  | writeCbuf (address : Nat) (b : Byte)
  /-- assert reset, with the DEV_ADDR strap at that value (70_reset_and_hazards.md R240) -/
  | reset (strap : DevAddr)
  /-- make no move while the engine takes one step: reading RET, STATUS or CP, or waiting -/
  | wait
deriving DecidableEq, Repr

/-- How far the running operation has come (70_reset_and_hazards.md R255). -/
structure Progress where
  /-- transport calls made since the command was issued -/
  calls : Nat
  /-- the return value of the last of them -/
  lastRet : Word
  /-- whether the last of them was a read that showed the lock bit: all that crosses a step of the read, whose buffer is a local
  value of that step (10_state.md R29, 41_pll.md R146) -/
  locked : Bool
deriving DecidableEq, Repr

/-- No call made yet. Log entry 8 names the values no rule gives. -/
def Progress.start : Progress := ⟨0, 0#32, false⟩

/-- The state of one engine with its host and its transport. -/
structure State where
  /-- DEV_ADDR (10_state.md R21) -/
  devAddr : DevAddr
  /-- T, the abstract name of the transport (10_state.md R21) -/
  transport : Nat
  /-- OPC (10_state.md R22) -/
  opc : Byte
  /-- OPA (10_state.md R22) -/
  opa : Word
  /-- OPB (10_state.md R22) -/
  opb : Word
  /-- RET (10_state.md R23) -/
  ret : Word
  /-- STATUS (10_state.md R24) -/
  status : Byte
  /-- CP (10_state.md R27) -/
  cp : Word
  /-- CBUF (10_state.md R28) -/
  cbuf : Memory
  /-- H, oldest event first (10_state.md R30) -/
  hist : List BusEvent
  /-- progress inside the running operation (70_reset_and_hazards.md R255) -/
  prog : Progress
  /-- the parameters of 00_scope.md R10, constant (the model's own field, log entry 1) -/
  cfg : Params
  /-- the host's coming moves, the next one first (the model's own field, log entry 9) -/
  script : List HostMove
  /-- the draw counter of the free values (the model's own field, log entry 7) -/
  seed : Nat
deriving DecidableEq, Repr

/-- The faults of 60_exceptions.md R211, with the document's message or the spec's name. -/
inductive FaultCode where
  /-- "Bad Fs" -/
  | badFs
  /-- "Wrong Master Clock with Fs 48kHz Series" -/
  | wrongMclk48
  /-- "Wrong Master Clock with Fs 44.1kHz Series" -/
  | wrongMclk441
  /-- IllegalCommand -/
  | illegalCommand
  /-- BufferRange -/
  | bufferRange
  /-- BadGain -/
  | badGain
deriving DecidableEq, Repr

/-- The reasons a step stops with a fault. Taking one of the engine's six faults is NOT among them: that is a next state. -/
inductive Fault where
  /-- Raised by `machineStep` in HALTED when the host has no move left: HALTED is terminal and "a fault outcome"
  (60_exceptions.md R218, log entry 10). Carries STATUS.FAULT. Safe: the hardware does nothing either. -/
  | halted (code : BitVec 4)
  /-- Raised by `engineStep` when STATUS.RUN = 3, which "never occurs" (10_state.md R24). Safe: no run reaches it. -/
  | runReserved
  /-- Raised by `machineStep` on a host write to an address CBUF does not have (10_state.md R28). Safe: the spec gives no such
  cell. -/
  | hostWriteOutsideCbuf (address : Nat)
deriving DecidableEq, Repr

/-- The reasons a step is refused. -/
inductive Refusal where
  /-- An instruction without a meaning in this model; no instruction is (no arm of `exec` raises it). Safe. -/
  | notModelled (mnemonic : String)
deriving DecidableEq, Repr

/-- The machine right after reset (10_state.md R32, 70_reset_and_hazards.md R240, R241). OPC, OPA, OPB and the inside of `prog`
are named by log entries 2 and 8; `devAddr` and `transport` are the strap and the wiring (3, 4); `cfg`, `script` and `seed` are
the model's own (1, 9, 7). -/
def State.reset : State where
  devAddr := Config.devAddrStrap
  transport := Config.wiredTransport
  opc := 0#8
  opa := 0#32
  opb := 0#32
  ret := 0#32
  status := 0#8
  cp := 0#32
  cbuf := []
  hist := []
  prog := Progress.start
  cfg := Params.default
  script := []
  seed := 0

end Sys2Proof.Machine
end

