-- ==== Sys2Proof/Machine/Flags.lean ====
section
/-! DEFINITION. STATUS: its fields RUN and FAULT, the engine's only flag-like state (10_state.md R24, R25), and the fault codes
(60_exceptions.md R211). -/

namespace Sys2Proof.Machine

/-- The values of STATUS.RUN (10_state.md R24). -/
inductive Run where
  | idle
  | busy
  | halted
  /-- 3, which never occurs -/
  | reserved
deriving DecidableEq, Repr

/-- The two bits of a RUN value (10_state.md R24). -/
def runBits : Run → BitVec 2
  | .idle => 0#2
  | .busy => 1#2
  | .halted => 2#2
  | .reserved => 3#2

/-- The RUN value two bits spell. -/
def runOfBits (b : BitVec 2) : Run :=
  if b = 0#2 then .idle else if b = 1#2 then .busy else if b = 2#2 then .halted else .reserved

/-- STATUS[1:0] -/
def statusRun (v : Byte) : Run := runOfBits (v.extractLsb' 0 2)

/-- STATUS[5:2] -/
def statusFault (v : Byte) : BitVec 4 := v.extractLsb' 2 4

/-- STATUS[7:6] -/
def statusReserved (v : Byte) : BitVec 2 := v.extractLsb' 6 2

/-- STATUS with RUN replaced. -/
def statusWithRun (v : Byte) (r : Run) : Byte := (v &&& 0xFC#8) ||| (runBits r).setWidth 8

/-- STATUS with FAULT replaced. -/
def statusWithFault (v : Byte) (code : BitVec 4) : Byte := (v &&& 0xC3#8) ||| (code.setWidth 8 <<< 2)

/-- The numeric code of a fault (60_exceptions.md R211). -/
def faultCode : FaultCode → BitVec 4
  | .badFs => 1#4
  | .wrongMclk48 => 2#4
  | .wrongMclk441 => 3#4
  | .illegalCommand => 4#4
  | .bufferRange => 5#4
  | .badGain => 6#4

/-- STATUS.RUN of a state. -/
def State.run (s : State) : Run := statusRun s.status

/-- STATUS.FAULT of a state. -/
def State.faultField (s : State) : BitVec 4 := statusFault s.status

end Sys2Proof.Machine
end

