-- ==== Sys2Proof/Machine/Operands.lean ====
section
/-! DEFINITION. The operand forms: register addresses and big-endian halves (20_memory.md R45, R46), clamping (00_scope.md R13),
binary32 operands (00_scope.md R13, 42_gain.md R166), and 7-bit addresses (30_encoding.md R76). -/

namespace Sys2Proof.Machine

/-- `hi(a) = a[15:8]` (00_scope.md R12) -/
def hiByte (a : Half) : Byte := a.extractLsb' 8 8

/-- `lo(a) = a[7:0]` (00_scope.md R12) -/
def loByte (a : Half) : Byte := a.extractLsb' 0 8

/-- A 16-bit quantity as two bytes, high byte first (20_memory.md R46). -/
def halfBytes (a : Half) : List Byte := [hiByte a, loByte a]

/-- A Register Command: the address, high byte first, then the payload (20_memory.md R45). -/
def registerCommand (address : Half) (payload : List Byte) : List Byte := halfBytes address ++ payload

/-- `OPA[6:0]`, the device-address operand of PROBE (30_encoding.md R76). -/
def deviceOperand (a : Word) : DevAddr := a.extractLsb' 0 7

/-- `clamp(v, a, b)` (00_scope.md R13) -/
def clamp (v a b : Int) : Int := if v < a then a else if v > b then b else v

/-- Bits 30:23 of a binary32 pattern. -/
def f32Exponent (p : Word) : Nat := (p.extractLsb' 23 8).toNat

/-- Bits 22:0 of a binary32 pattern. -/
def f32Fraction (p : Word) : Nat := (p.extractLsb' 0 23).toNat

/-- Bit 31 of a binary32 pattern. -/
def f32Negative (p : Word) : Bool := p.getLsbD 31

/-- `isNaN(p)`: exponent = 255 and fraction ≠ 0 (00_scope.md R13). -/
def f32IsNaN (p : Word) : Bool := f32Exponent p == 255 && f32Fraction p != 0

/-- How many units of 2^-149, the spacing of the smallest binary32 values, make one. -/
def f32One : Int := 2 ^ 149

/-- The magnitude of a finite pattern in units of 2^-149. -/
def f32Magnitude (p : Word) : Nat :=
  if f32Exponent p = 0 then f32Fraction p else (f32Fraction p + 2 ^ 23) * 2 ^ (f32Exponent p - 1)

/-- `real(p)` of a finite pattern, exactly, in units of 2^-149 (00_scope.md R13). -/
def f32Scaled (p : Word) : Int := if f32Negative p then -(f32Magnitude p : Int) else (f32Magnitude p : Int)

/-- `g >= t` for an integer threshold t in decibels: an exact comparison, with the infinities above and below every threshold
and false on a NaN (42_gain.md R165, R167). -/
def f32AtLeast (p : Word) (t : Int) : Bool :=
  if f32Exponent p = 255 then f32Fraction p == 0 && !f32Negative p else decide (t * f32One ≤ f32Scaled p)

/-- The place of the last significant bit that a 24-bit significand keeps of a magnitude whose integer part is `q` units:
binary32 values below 2^24 units are 1 unit apart, and each doubling doubles the spacing. -/
def f32Shift (q : Nat) : Nat := Nat.log2 q + 1 - 24

/-- `a / d` rounded to the nearest natural number, ties to even. -/
def roundHalfEven (a d : Nat) : Nat :=
  if 2 * (a % d) > d || (2 * (a % d) == d && a / d % 2 == 1) then a / d + 1 else a / d

/-- `rne32` of the rational `num / den` units of 2^-149, in units of 2^-149: the nearest binary32 value, ties to even
(42_gain.md R166). No gain sum can overflow (log entry 12). -/
def rne32 (num : Int) (den : Nat) : Int :=
  let sh := f32Shift (num.natAbs / den)
  let m := roundHalfEven num.natAbs (den * 2 ^ sh) * 2 ^ sh
  if num < 0 then -(m : Int) else (m : Int)

end Sys2Proof.Machine
end

