-- ==== Sys2Proof/Machine/Ops.lean ====
section
/-! DEFINITION. The named operations: CBUF, the transport calls and their record, completing an operation, raising a fault,
reset, issuing a command, the host's reads, and the one shape every operation of the engine has. -/

namespace Sys2Proof.Machine

/-- The byte listed at an address, or nothing. -/
def Memory.find : Memory → Nat → Option Byte
  | [], _ => none
  | c :: m, a => if c.1 = a then some c.2 else Memory.find m a

/-- Write one byte and keep the addresses strictly rising. -/
def Memory.write : Memory → Nat → Byte → Memory
  | [], a, b => [(a, b)]
  | c :: m, a, b =>
    if a < c.1 then (a, b) :: c :: m else if a = c.1 then (a, b) :: m else c :: Memory.write m a b

/-- `CBUF[i]`: the byte the host last wrote there, a free value if it wrote none since reset (20_memory.md R50). -/
def State.readCbuf (s : State) (i : Nat) : Byte :=
  match s.cbuf.find i with
  | some b => b
  | none => Config.unwrittenByte s.seed i

/-- The `n` bytes of CBUF from an offset on. -/
def State.readCbufRange (s : State) (offset n : Nat) : List Byte :=
  (List.range n).map (fun k => s.readCbuf (offset + k))

/-- The return value in an event. -/
def eventRet : BusEvent → Word
  | .write _ _ _ ret => ret
  | .read _ _ _ ret _ => ret

/-- The lock test: bit 1 of the sixth byte of the buffer, and nothing else (41_pll.md R146). -/
def lockSeen (buf : List Byte) : Bool :=
  match buf[Config.lockByte]? with
  | some b => b.getLsbD Config.lockBit
  | none => false

/-- The lock test on an event: only a read can show the lock bit. -/
def eventLocked : BusEvent → Bool
  | .write _ _ _ _ => false
  | .read _ _ _ _ data => lockSeen data

/-- The call an event records. -/
def eventCall : BusEvent → BusCall
  | .write dev bytes noStop _ => .write dev bytes noStop
  | .read dev n noStop _ _ => .read dev n noStop

/-- The event a call becomes: its arguments with the responder's whole answer (20_memory.md R41, R42, R44, R62). -/
def State.answer (s : State) : BusCall → BusEvent
  | .write dev bytes noStop =>
    .write dev bytes noStop (Config.writeAnswer s.seed s.transport s.hist dev bytes noStop)
  | .read dev n noStop =>
    .read dev n noStop (Config.readAnswer s.seed s.transport s.hist dev n noStop)
      ((List.range n).map (fun i => Config.readByte s.seed s.transport s.hist dev n noStop i))

/-- One engine step that makes a transport call: the call, the answer and the append to H together
(70_reset_and_hazards.md R255, 20_memory.md R62). Of the answer the engine keeps the return value and the lock test's outcome. -/
def State.makeCall (c : BusCall) (s : State) : State :=
  { s with
    hist := s.hist ++ [s.answer c]
    seed := s.seed + 1
    prog := ⟨s.prog.calls + 1, eventRet (s.answer c), eventLocked (s.answer c)⟩ }

/-- `SendCommand(bytes)`: one write of the whole buffer to DEV_ADDR with no_stop = false (40_sequencer.md R100). -/
def State.sendCommand (s : State) (bytes : List Byte) : BusCall := .write s.devAddr bytes false

/-- `MemWrite(addr, n, v)` (20_memory.md R47) -/
def State.memWrite (s : State) (address : Half) (v : List Byte) : BusCall := s.sendCommand (registerCommand address v)

/-- The address write of `MemRead(addr, n)`, with no_stop = true (20_memory.md R48). -/
def State.memReadAddress (s : State) (address : Half) : BusCall := .write s.devAddr (halfBytes address) true

/-- The read of `MemRead(addr, n)`, with no_stop = false (20_memory.md R48). -/
def State.memReadData (s : State) (n : Nat) : BusCall := .read s.devAddr n false

/-- The completion step: RET, CP and STATUS.RUN written together (70_reset_and_hazards.md R255). RET gets `result` of the last
return value, and stays as it was when the operation made no call (10_state.md R23). -/
def State.complete (result : Word → Word) (s : State) : State :=
  { s with
    ret := if s.prog.calls = 0 then s.ret else result s.prog.lastRet
    cp := s.cp + 1#32
    status := statusWithRun s.status .idle
    prog := Progress.start }

/-- Taking a fault, `raise F`: STATUS.FAULT gets the code, STATUS.RUN becomes HALTED, and nothing else changes
(60_exceptions.md R216). -/
def State.raise (f : FaultCode) (s : State) : State :=
  { s with status := statusWithRun (statusWithFault s.status (faultCode f)) .halted }

/-- Reset, the only exit from HALTED (60_exceptions.md R218, 70_reset_and_hazards.md R240): every element takes its value of
10_state.md R32, DEV_ADDR is sampled from its strap, no transaction is issued. The transport, the parameters and the host go
on, and the responder is not reset. -/
def State.resetEngine (strap : DevAddr) (s : State) : State :=
  { State.reset with
    devAddr := strap
    transport := s.transport
    cfg := s.cfg
    script := s.script
    seed := Config.seedAfterReset s.seed s.hist }

/-- Command issue: the three latches are loaded from the word and STATUS.RUN becomes BUSY (30_encoding.md R70). -/
def State.issue (w : Command) (s : State) : State :=
  { s with
    opc := w.opc
    opa := w.opa
    opb := w.opb
    status := statusWithRun s.status .busy
    prog := Progress.start }

/-- The host writes one byte of CBUF (10_state.md R28). -/
def State.hostWrite (a : Nat) (b : Byte) (s : State) : State := { s with cbuf := s.cbuf.write a b }

/-- The host's moves after the first. -/
def State.popScript (s : State) : State := { s with script := s.script.tail }

/-- The registers the host can read (10_state.md R33, 70_reset_and_hazards.md R248). -/
inductive HostReg where
  | ret
  | status
  | cp
deriving DecidableEq, Repr

/-- What the host reads from a register, at any time; reading changes nothing. -/
def State.hostRead (s : State) : HostReg → Word
  | .ret => s.ret
  | .status => s.status.setWidth 32
  | .cp => s.cp

/-- One step of an operation that makes the transport calls `call 0`, `call 1`, … until `call` answers nothing: the fault
condition is evaluated in the first step only, before the first call (60_exceptions.md R217, 70_reset_and_hazards.md R255);
then one step per call, then the completion step. -/
def runOperation (check : Option FaultCode) (call : Nat → Option BusCall) (result : Word → Word) (s : State) :
    Host.Outcome State Fault Refusal :=
  match (if s.prog.calls = 0 then check else none) with
  | some f => .next (s.raise f)
  | none =>
    match call s.prog.calls with
    | some c => .next (s.makeCall c)
    | none => .next (s.complete result)

end Sys2Proof.Machine
end

