-- ==== Sys2Proof/Machine/Pll.lean ====
section
/-! DEFINITION. The PLL Configurator and Lock Poller: CFGPLL, WAITLOCK (41_pll.md). -/

namespace Sys2Proof.Machine

/-- A sample-rate family (41_pll.md R121). -/
inductive Family where
  | f48
  | f441
deriving DecidableEq, Repr

/-- The family of a sample rate in hertz, if it is in one (41_pll.md R121, R122). -/
def familyOf (fs : Nat) : Option Family :=
  if Config.fsSet48.contains fs then some .f48 else if Config.fsSet441.contains fs then some .f441 else none

/-- `f_target` (41_pll.md R121). -/
def familyTarget : Family → Nat
  | .f48 => Config.fTarget48
  | .f441 => Config.fTarget441

/-- The fault of a wrong master clock, by family (41_pll.md R123). -/
def wrongMclk : Family → FaultCode
  | .f48 => .wrongMclk48
  | .f441 => .wrongMclk441

/-- The fs check that CFGPLL and CFGSRC share (41_pll.md R122, 43_core_src.md R192). -/
def fsCheck (fs : Nat) : Option FaultCode := if (familyOf fs).isSome then none else some .badFs

/-- CFGPLL's validation: fs first, then mclock (41_pll.md R124). -/
def pllCheck (fs mclock : Nat) : Option FaultCode :=
  match familyOf fs with
  | none => some .badFs
  | some fam => if Config.mclkSet.contains mclock then none else some (wrongMclk fam)

/-- The input divider x: the least of 1, 2, 3, 4 with `mclock ≤ x * FIN_MAX`, else 4 (41_pll.md R125). -/
def pllX (finMax mclock : Nat) : Nat :=
  if mclock ≤ 1 * finMax then 1 else if mclock ≤ 2 * finMax then 2 else if mclock ≤ 3 * finMax then 3 else 4

/-- The integer multiplier r (41_pll.md R126). -/
def pllR (target x mclock : Nat) : Nat := (clamp ((target * x / mclock : Nat) : Int) 1 8).toNat

/-- `rem = f_target * x - r * mclock` (41_pll.md R127). -/
def pllRem (target x r mclock : Nat) : Int := (target * x : Nat) - (r * mclock : Nat)

/-- For one denominator m, the numerator in 0..m-1 nearest to `rem / den * m`, the smaller of two equally near: the ceiling of
that value less one half, clamped. -/
def nearestNum (rem : Int) (den m : Nat) : Nat :=
  (clamp (-(((den : Int) - 2 * (rem * m)) / (2 * (den : Int)))) 0 ((m : Int) - 1)).toNat

/-- `abs(rem / den - n / m)` times `den * m`. -/
def fracError (rem : Int) (den n m : Nat) : Nat := (rem * m - (n : Int) * den).natAbs

/-- The best fraction with denominator at most k: a scan over the denominators that keeps the earlier of equal errors. -/
def bestFracScan (rem : Int) (den : Nat) : Nat → Nat × Nat
  | 0 => (0, 1)
  | k + 1 =>
    let best := bestFracScan rem den k
    let n := nearestNum rem den (k + 1)
    if fracError rem den n (k + 1) * best.2 < fracError rem den best.1 best.2 * (k + 1) then (n, k + 1) else best

/-- `BestFrac(rem / den, M_MAX)` (41_pll.md R128): the fraction in lowest terms when its denominator fits (R129), the scan
otherwise. -/
def bestFrac (rem : Int) (den : Nat) : Nat × Nat :=
  if 0 ≤ rem ∧ rem < den ∧ den / Nat.gcd rem.toNat den ≤ Config.mMax then
    (rem.toNat / Nat.gcd rem.toNat den, den / Nat.gcd rem.toNat den)
  else bestFracScan rem den Config.mMax

/-- The PLL Parameters record (00_scope.md R17, 41_pll.md R131). -/
structure PllParams where
  x : Nat
  r : Nat
  n : Half
  m : Half
  fractional : Bool
  enabled : Bool
deriving DecidableEq, Repr

/-- The search (41_pll.md R125 to R131). -/
def pllSearch (finMax target mclock : Nat) : PllParams :=
  let x := pllX finMax mclock
  let r := pllR target x mclock
  let nm := bestFrac (pllRem target x r mclock) mclock
  { x := x, r := r, n := BitVec.ofNat 16 nm.1, m := BitVec.ofNat 16 nm.2, fractional := nm.1 != 0, enabled := true }

/-- The control byte (41_pll.md R132; 90_conflicts.md C10 for r = 8). -/
def pllControl (p : PllParams) : Byte :=
  (BitVec.ofNat 8 (p.r % 8) <<< 3) ||| (BitVec.ofNat 8 (p.x - 1) <<< 1) ||| (if p.fractional then 1#8 else 0#8)

/-- The enable byte (41_pll.md R133). -/
def pllEnable (p : PllParams) : Byte := if p.enabled then 0x01#8 else 0x00#8

/-- The six payload bytes of the PLL register block, M before N (41_pll.md R134). -/
def pllBlock (p : PllParams) : List Byte := halfBytes p.m ++ halfBytes p.n ++ [pllControl p, pllEnable p]

/-- CFGPLL's one call (41_pll.md R134, R135). -/
def cfgPllCall (fs mclock : Word) (s : State) (k : Nat) : Option BusCall :=
  if k = 0 then
    (familyOf fs.toNat).map (fun fam =>
      s.memWrite s.cfg.pllAddr (pllBlock (pllSearch s.cfg.finMax (familyTarget fam) mclock.toNat)))
  else none

/-- CFGPLL (41_pll.md R136). -/
def execCfgPll (fs mclock : Word) (s : State) : Host.Outcome State Fault Refusal :=
  runOperation (pllCheck fs.toNat mclock.toNat) (cfgPllCall fs mclock s) id s

/-- WAITLOCK's calls: the address write and the read in turn, whatever they answer, until a read has shown the lock bit
(41_pll.md R145 to R148). -/
def waitLockCall (s : State) (k : Nat) : Option BusCall :=
  if k % 2 = 1 then some (s.memReadData Config.statusReadLen)
  else if k ≠ 0 ∧ s.prog.locked then none
  else some (s.memReadAddress s.cfg.pllStatusAddr)

/-- WAITLOCK (41_pll.md R145). -/
def execWaitLock (s : State) : Host.Outcome State Fault Refusal := runOperation none (waitLockCall s) id s

end Sys2Proof.Machine
end

