-- ==== Sys2Proof/Machine/CoreSrc.lean ====
section
/-! DEFINITION. The Core/SRC Initializer: INITCORE, DISPLL, CFGSRC (43_core_src.md). -/

namespace Sys2Proof.Machine

/-- A single call. -/
def onlyCall (c : BusCall) (k : Nat) : Option BusCall := if k = 0 then some c else none

/-- INITCORE (43_core_src.md R190). -/
def execInitCore (s : State) : Host.Outcome State Fault Refusal :=
  runOperation none (onlyCall (s.memWrite s.cfg.clkctlAddr [s.cfg.clkctlDisable])) id s

/-- DISPLL (43_core_src.md R191). -/
def execDisPll (s : State) : Host.Outcome State Fault Refusal :=
  runOperation none (onlyCall (s.memWrite s.cfg.pllAddr s.cfg.pllDisable)) id s

/-- The Register Commands the parameter SRC_WRITES gives for a sample rate (43_core_src.md R193). -/
def srcWritesFor (p : Params) (fs : Nat) : List (List Byte) :=
  match p.srcWrites.find? (fun e => e.1 == fs) with
  | some e => e.2
  | none => []

/-- CFGSRC's call number `k`: the k-th command of SRC_WRITES(fs) (43_core_src.md R192). -/
def cfgSrcCall (fs : Word) (s : State) (k : Nat) : Option BusCall :=
  ((srcWritesFor s.cfg fs.toNat)[k]?).map (fun bytes => s.sendCommand bytes)

/-- CFGSRC (43_core_src.md R192). -/
def execCfgSrc (fs : Word) (s : State) : Host.Outcome State Fault Refusal :=
  runOperation (fsCheck fs.toNat) (cfgSrcCall fs s) id s

end Sys2Proof.Machine
end

