-- ==== Sys2Proof/Machine/Gain.lean ====
section
/-! DEFINITION. The Gain Quantizers: SETLIG, SETAXG, SETLOG, SETHPG (42_gain.md). -/

namespace Sys2Proof.Machine

/-- The six thresholds of the input schemes, in dB (42_gain.md R165). -/
def inThresholds : List Int := [-9, -6, -3, 0, 3, 6]

/-- The 63 thresholds -56, -55, …, 6 of the output schemes, in dB (42_gain.md R165). -/
def outThresholds : List Int := (List.range 63).map (fun k => (k : Int) - 56)

/-- InCode under EXACT evaluation: the comparator form (42_gain.md R165). -/
def inCodeExact (p : Word) : Nat := 1 + inThresholds.countP (fun t => f32AtLeast p t)

/-- OutCode under EXACT evaluation: the comparator form (42_gain.md R165). -/
def outCodeExact (p : Word) : Nat := outThresholds.countP (fun t => f32AtLeast p t)

/-- InCode under F32 evaluation: t1 = rne32(g + 12), t2 = rne32(t1 / 3), floor(t2) + 1, clamped (42_gain.md R166); the
infinities as 42_gain.md R167 says. -/
def inCodeF32 (p : Word) : Nat :=
  if f32Exponent p = 255 then inCodeExact p
  else (clamp (rne32 (rne32 (f32Scaled p + 12 * f32One) 1) 3 / f32One + 1) 1 7).toNat

/-- OutCode under F32 evaluation: t1 = rne32(g + 57), floor(t1), clamped (42_gain.md R166). -/
def outCodeF32 (p : Word) : Nat :=
  if f32Exponent p = 255 then outCodeExact p
  else (clamp (rne32 (f32Scaled p + 57 * f32One) 1 / f32One) 0 63).toNat

/-- `InCode(g)` under the parameter GAIN_EVAL (42_gain.md R161, R166). -/
def inCode : GainEval → Word → Nat
  | .exactReal => inCodeExact
  | .binary32 => inCodeF32

/-- `OutCode(g)` under the parameter GAIN_EVAL (42_gain.md R163, R166). -/
def outCode : GainEval → Word → Nat
  | .exactReal => outCodeExact
  | .binary32 => outCodeF32

/-- The code an input scheme emits: forced to 0 by mute (42_gain.md R162). -/
def inputCode (s : State) (mute : Bool) (p : Word) : Byte :=
  if mute then 0#8 else BitVec.ofNat 8 (inCode s.cfg.gainEval p)

/-- The code an output scheme emits, muted or not (42_gain.md R164). -/
def outputCode (s : State) (p : Word) : Byte := BitVec.ofNat 8 (outCode s.cfg.gainEval p)

/-- BadGain when an operand is a NaN (42_gain.md R167). -/
def nanCheck (left right : Word) : Option FaultCode :=
  if f32IsNaN left || f32IsNaN right then some .badGain else none

/-- The input schemes examine their operands only when not muted (42_gain.md R162). -/
def inputCheck (left right : Word) (mute : Bool) : Option FaultCode := if mute then none else nanCheck left right

/-- Line Input byte: `(code << 1) | 1` (42_gain.md R168). -/
def lineInByte (code : Byte) : Byte := (code <<< 1) ||| 1#8

/-- Aux Input byte: the code (42_gain.md R169). -/
def auxInByte (code : Byte) : Byte := code

/-- Line Output byte: `(code << 2) | (mute ? 0 : 2)` (42_gain.md R170). -/
def lineOutByte (code : Byte) (mute : Bool) : Byte := (code <<< 2) ||| (if mute then 0#8 else 2#8)

/-- Headphone Output byte: `(code << 2) | (mute ? 1 : 3)` (42_gain.md R171). -/
def hpOutByte (code : Byte) (mute : Bool) : Byte := (code <<< 2) ||| (if mute then 1#8 else 3#8)

/-- The two calls of a gain operation, left first, each a 3-byte write to its own register (42_gain.md R172, R173). -/
def gainCall (addrL addrR : Half) (byteL byteR : Byte) (s : State) (k : Nat) : Option BusCall :=
  if k = 0 then some (s.memWrite addrL [byteL]) else if k = 1 then some (s.memWrite addrR [byteR]) else none

/-- SETLIG (42_gain.md R174). -/
def execSetLig (left right : Word) (mute : Bool) (s : State) : Host.Outcome State Fault Refusal :=
  runOperation (inputCheck left right mute)
    (gainCall s.cfg.lineInL s.cfg.lineInR (lineInByte (inputCode s mute left)) (lineInByte (inputCode s mute right)) s) id s

/-- SETAXG (42_gain.md R175). -/
def execSetAxg (left right : Word) (mute : Bool) (s : State) : Host.Outcome State Fault Refusal :=
  runOperation (inputCheck left right mute)
    (gainCall s.cfg.auxInL s.cfg.auxInR (auxInByte (inputCode s mute left)) (auxInByte (inputCode s mute right)) s) id s

/-- SETLOG (42_gain.md R176). -/
def execSetLog (left right : Word) (mute : Bool) (s : State) : Host.Outcome State Fault Refusal :=
  runOperation (nanCheck left right)
    (gainCall s.cfg.lineOutL s.cfg.lineOutR (lineOutByte (outputCode s left) mute) (lineOutByte (outputCode s right) mute) s) id s

/-- SETHPG (42_gain.md R177). -/
def execSetHpg (left right : Word) (mute : Bool) (s : State) : Host.Outcome State Fault Refusal :=
  runOperation (nanCheck left right)
    (gainCall s.cfg.hpOutL s.cfg.hpOutR (hpOutByte (outputCode s left) mute) (hpOutByte (outputCode s right) mute) s) id s

end Sys2Proof.Machine
end

