-- ==== Sys2Proof/Machine/Sequencer.lean ====
section
/-! DEFINITION. The Command Sequencer and Device Prober: SEND, SENDTBL, PROBE (40_sequencer.md). -/

namespace Sys2Proof.Machine

/-- BufferRange when `start + n` leaves CBUF, the sum exact (60_exceptions.md R215). -/
def rangeCheck (s : State) (start n : Nat) : Option FaultCode :=
  if start + n > s.cfg.cbufSize then some .bufferRange else none

/-- SEND's one call: the bytes `CBUF[offset .. offset+length-1]`, whatever they are (40_sequencer.md R101, R102). -/
def sendCall (offset length : Word) (s : State) (k : Nat) : Option BusCall :=
  if k = 0 then some (s.sendCommand (s.readCbufRange offset.toNat length.toNat)) else none

/-- SEND (40_sequencer.md R101). -/
def execSend (offset length : Word) (s : State) : Host.Outcome State Fault Refusal :=
  runOperation (rangeCheck s offset.toNat length.toNat) (sendCall offset length s) id s

/-- SENDTBL's call for row `k`: TABLE_ROW_BYTES bytes from `base + k * TABLE_ROW_BYTES` on (40_sequencer.md R103). -/
def sendTblCall (base rowCount : Word) (s : State) (k : Nat) : Option BusCall :=
  if k < rowCount.toNat then
    some (s.sendCommand (s.readCbufRange (base.toNat + k * s.cfg.tableRowBytes) s.cfg.tableRowBytes))
  else none

/-- SENDTBL (40_sequencer.md R103, R104): the range is checked once, before any row, and no row's answer stops the table. -/
def execSendTbl (base rowCount : Word) (s : State) : Host.Outcome State Fault Refusal :=
  runOperation (rangeCheck s base.toNat (rowCount.toNat * s.cfg.tableRowBytes)) (sendTblCall base rowCount s) id s

/-- 1 when the transport's return value is non-negative, 0 when it is negative (40_sequencer.md R107, R108). -/
def probeResult (ret : Word) : Word := if 0 ≤ ret.toInt then 1#32 else 0#32

/-- PROBE's one call: a zero-length write to the operand's address, not to DEV_ADDR (40_sequencer.md R107). -/
def probeCall (addr : Word) (k : Nat) : Option BusCall :=
  if k = 0 then some (.write (deviceOperand addr) [] false) else none

/-- PROBE (40_sequencer.md R107). -/
def execProbe (addr : Word) (s : State) : Host.Outcome State Fault Refusal :=
  runOperation none (probeCall addr) probeResult s

end Sys2Proof.Machine
end

