-- ==== Sys2Proof/Machine/Dispatch.lean ====
section
/-! DEFINITION. One engine step of an operation, one arm per row of the opcode table (30_encoding.md R72, R79). -/

namespace Sys2Proof.Machine

def exec (i : Instr) (s : State) : Host.Outcome State Fault Refusal :=
  match i with
  | .send offset length => Sys2Proof.Machine.execSend offset length s
  | .sendTbl base rowCount => Sys2Proof.Machine.execSendTbl base rowCount s
  | .probe addr => Sys2Proof.Machine.execProbe addr s
  | .cfgPll fs mclock => Sys2Proof.Machine.execCfgPll fs mclock s
  | .waitLock => Sys2Proof.Machine.execWaitLock s
  | .setLig left right mute => Sys2Proof.Machine.execSetLig left right mute s
  | .setAxg left right mute => Sys2Proof.Machine.execSetAxg left right mute s
  | .setLog left right mute => Sys2Proof.Machine.execSetLog left right mute s
  | .setHpg left right mute => Sys2Proof.Machine.execSetHpg left right mute s
  | .initCore => Sys2Proof.Machine.execInitCore s
  | .disPll => Sys2Proof.Machine.execDisPll s
  | .cfgSrc fs => Sys2Proof.Machine.execCfgSrc fs s

end Sys2Proof.Machine
end

