-- ==== Sys2Proof/Machine/Engine.lean ====
section
/-! DEFINITION. The engine's turn and the host's turn: what one step of the machine does (30_encoding.md R79,
70_reset_and_hazards.md R248, R255). -/

namespace Sys2Proof.Machine

/-- The engine's turn. IDLE: it waits for a command (70_reset_and_hazards.md R241). BUSY: the latched command is decoded, an
illegal one raises IllegalCommand, a legal one takes its next step (30_encoding.md R79). HALTED: it does nothing for good
(60_exceptions.md R218). -/
def engineStep (s : State) : Host.Outcome State Fault Refusal :=
  match s.run with
  | .idle => .next s
  | .busy =>
    match decodeFields s.opc s.opa s.opb with
    | some i => exec i s
    | none => .next (s.raise .illegalCommand)
  | .halted => .fault (.halted s.faultField)
  | .reserved => .fault .runReserved

/-- The host issues a command word when the engine is IDLE and is blocked while it works (30_encoding.md R70, R79); a word
presented to a HALTED engine is not accepted and has no effect (60_exceptions.md R218). -/
def hostIssue (w : Command) (s : State) : Host.Outcome State Fault Refusal :=
  match s.run with
  | .idle => .next (s.popScript.issue w)
  | .busy => engineStep s
  | .halted => .next s.popScript
  | .reserved => engineStep s

/-- The host writes CBUF when the engine is IDLE or HALTED and is blocked while it works (70_reset_and_hazards.md R248). -/
def hostWriteCbuf (a : Nat) (b : Byte) (s : State) : Host.Outcome State Fault Refusal :=
  match s.run with
  | .busy => engineStep s
  | .reserved => engineStep s
  | .idle => if a < s.cfg.cbufSize then .next (s.popScript.hostWrite a b) else .fault (.hostWriteOutsideCbuf a)
  | .halted => if a < s.cfg.cbufSize then .next (s.popScript.hostWrite a b) else .fault (.hostWriteOutsideCbuf a)

/-- The host makes no move: the engine takes its step, or nothing happens when it is IDLE or HALTED. -/
def hostWait (s : State) : Host.Outcome State Fault Refusal :=
  match s.run with
  | .halted => .next s.popScript
  | .idle => engineStep s.popScript
  | .busy => engineStep s.popScript
  | .reserved => engineStep s.popScript

/-- One step of the machine: the host's next move where it may move, the engine's step otherwise. Reset may come before any
step (70_reset_and_hazards.md R240, R242). -/
def machineStep (s : State) : Host.Outcome State Fault Refusal :=
  match s.script with
  | [] => engineStep s
  | .issue w :: _ => hostIssue w s
  | .writeCbuf a b :: _ => hostWriteCbuf a b s
  | .reset strap :: _ => .next (s.popScript.resetEngine strap)
  | .wait :: _ => hostWait s

/-- Make the next step the engine's: nothing to do when the host has no move left, one `wait` before its moves otherwise. -/
def State.engineTurn (s : State) : State :=
  match s.script with
  | [] => s
  | m :: rest => { s with script := .wait :: m :: rest }

/-- The host has just issued the command word, and the next step is the engine's. -/
def State.present (s : State) (w : Command) : State := (s.issue w).engineTurn

end Sys2Proof.Machine
end

