-- ==== Sys2Proof/Safety.lean ====
section
/-! DEFINITION. The terms claims are stated in: the run of one operation, its frame, the invariant, the exact values the PLL and
gain rules speak of, and what a run that went well is. -/

namespace Sys2Proof.Machine

/-- `n` engine steps of one operation. -/
def execN (i : Instr) : Nat → State → Host.Outcome State Fault Refusal
  | 0, s => .next s
  | n + 1, s =>
    match exec i s with
    | .next t => execN i n t
    | .fault r => .fault r
    | .refused r => .refused r

/-- RET after an operation that made the calls recorded in `es`: `result` of the last return value, the old RET when it made
none (10_state.md R23). -/
def retAfter (result : Word → Word) (old : Word) (es : List BusEvent) : Word :=
  match es.getLast? with
  | some e => result (eventRet e)
  | none => old

/-- From `s` an operation has run to its end in `t` and made exactly these calls in this order: one event of H per call, RET by
`result`, CP one more, STATUS.RUN = IDLE, and NOTHING else changed (the draw counter and the progress record apart, which are
not the spec's). -/
def CompletesWith (result : Word → Word) (s : State) (calls : List BusCall) (t : State) : Prop :=
  ∃ es : List BusEvent, es.map eventCall = calls ∧
    t = { s with
      hist := s.hist ++ es
      ret := retAfter result s.ret es
      cp := s.cp + 1#32
      status := statusWithRun s.status .idle
      prog := Progress.start
      seed := s.seed + calls.length }

/-- The same for every operation but PROBE: RET gets the last return value itself (10_state.md R23 (b), (c)). -/
abbrev Completes : State → List BusCall → State → Prop := CompletesWith id

/-- A command has just been issued: the operation has made no call yet. -/
def State.fresh (s : State) : Prop := s.prog = Progress.start

/-- What no operation writes: the constants, the latches, CBUF (through the read of one byte), the reserved bits of STATUS,
the parameters and the host's moves. -/
def Untouched (s t : State) : Prop :=
  t.devAddr = s.devAddr ∧ t.transport = s.transport ∧ t.opc = s.opc ∧ t.opa = s.opa ∧ t.opb = s.opb ∧
  (∀ a, t.cbuf.find a = s.cbuf.find a) ∧ statusReserved t.status = statusReserved s.status ∧
  t.cfg = s.cfg ∧ t.script = s.script

/-- A step that makes one call: H gains that event; RET, STATUS and CP keep their values. -/
def CallStep (s t : State) : Prop :=
  (∃ c, t.hist = s.hist ++ [s.answer c]) ∧ t.ret = s.ret ∧ t.status = s.status ∧ t.cp = s.cp

/-- A completion step: H and STATUS.FAULT keep their values. -/
def CompletionStep (s t : State) : Prop :=
  t.hist = s.hist ∧ t.faultField = s.faultField ∧ t.run = .idle ∧ t.cp = s.cp + 1#32

/-- A step that takes a fault: H, RET and CP keep their values. -/
def FaultStep (s t : State) : Prop :=
  t.hist = s.hist ∧ t.ret = s.ret ∧ t.cp = s.cp ∧ t.run = .halted ∧ t.faultField ≠ 0#4

/-- The frame of an operation: whatever step it takes, what no operation writes is untouched, and the step is one of three
kinds. -/
def OperationFrame (i : Instr) : Prop :=
  ∀ s t, exec i s = .next t → Untouched s t ∧ (CallStep s t ∨ CompletionStep s t ∨ FaultStep s t)

/-- STATUS is legal: 7:6 read as 0, RUN = 3 never occurs, FAULT ≠ 0 exactly when RUN = HALTED, FAULT is a code of
60_exceptions.md R211 (10_state.md R24). -/
def State.statusLegal (s : State) : Prop :=
  statusReserved s.status = 0#2 ∧ s.run ≠ .reserved ∧ (s.faultField ≠ 0#4 ↔ s.run = .halted) ∧ s.faultField.toNat ≤ 6

/-- CBUF has its canonical form and lists addresses of CBUF only (10_state.md R28). -/
def State.cbufLegal (s : State) : Prop := s.cbuf.wf = true ∧ ∀ c ∈ s.cbuf, c.1 < s.cfg.cbufSize

/-- Only a BUSY engine is inside an operation, and one that has made a call runs a legal command (60_exceptions.md R217). -/
def State.progressLegal (s : State) : Prop :=
  (s.run ≠ .busy → s.prog = Progress.start) ∧ (s.prog.calls = 0 → s.prog = Progress.start) ∧
  (s.prog.calls ≠ 0 → (decodeFields s.opc s.opa s.opb).isSome = true)

/-- Every call of the running operation is in H, the last one with the return value and the outcome of the lock test that the
engine holds (20_memory.md R62). -/
def State.historyLegal (s : State) : Prop :=
  s.prog.calls ≤ s.hist.length ∧ (s.prog.calls ≠ 0 → s.hist.getLast?.map eventRet = some s.prog.lastRet) ∧
  (s.prog.calls ≠ 0 → s.hist.getLast?.map eventLocked = some s.prog.locked)

/-- The invariant of the machine. -/
def State.Inv (s : State) : Prop := s.statusLegal ∧ s.cbufLegal ∧ s.progressLegal ∧ s.historyLegal

/-- A run went well: no fault was raised (60_exceptions.md R218). -/
def State.ranCorrectly (s : State) : Prop := s.faultField = 0#4

/-- Two engines that will do the same: the same address, parameters, CBUF and progress of the operation. -/
def SameInputs (s t : State) : Prop :=
  s.devAddr = t.devAddr ∧ s.cfg = t.cfg ∧ s.prog.calls = t.prog.calls ∧ s.prog.locked = t.prog.locked ∧
  (∀ i, s.readCbuf i = t.readCbuf i)

/-- `real(p)` of a finite binary32 pattern, from the sign, exponent and fraction fields (00_scope.md R13). -/
def f32Real (p : Word) : ℚ :=
  (if f32Negative p then -1 else 1) *
    (if f32Exponent p = 0 then (f32Fraction p : ℚ) / 2 ^ 149
     else (1 + (f32Fraction p : ℚ) / 2 ^ 23) * 2 ^ ((f32Exponent p : ℤ) - 127))

/-- A finite binary32 pattern: neither an infinity nor a NaN. -/
def f32Finite (p : Word) : Prop := f32Exponent p ≠ 255

/-- `f_out` of a parameter set, an exact rational (41_pll.md R138). -/
def fOut (mclock : Nat) (p : PllParams) : ℚ :=
  if p.fractional then (mclock : ℚ) / p.x * (p.r + (p.n.toNat : ℚ) / p.m.toNat) else (mclock : ℚ) / p.x * p.r

/-- The set C of candidate fractions (41_pll.md R128). -/
def FracCandidate (n m : Nat) : Prop := 1 ≤ m ∧ m ≤ Config.mMax ∧ n < m

/-- `abs(frac - n/m)` with frac = rem / den (41_pll.md R128). -/
def fracErr (rem : Int) (den n m : Nat) : ℚ := |(rem : ℚ) / den - (n : ℚ) / m|

/-- The triple (error, m, n) of the first fraction comes strictly before that of the second, in lexicographic order
(41_pll.md R128). -/
def FracBefore (rem : Int) (den n m n' m' : Nat) : Prop :=
  fracErr rem den n m < fracErr rem den n' m' ∨
  (fracErr rem den n m = fracErr rem den n' m' ∧ (m < m' ∨ (m = m' ∧ n < n')))

end Sys2Proof.Machine
end

