-- ==== Sys2Proof/Certificates/Slice0/Obligations.lean ====
section
/-! DEFINITION. The statements for the provers. Each docstring names the rule of the spec it formalises; a statement about the
parameters' defaults has `Params.default` as a premise. No statement rests on a value of `Config`'s bodiless constants. -/

open Sys2Proof Sys2Proof.Machine

-- ---------------------------------------------------------------- reset and STATUS

/-- 10_state.md R32: what reset leaves, for every element the rule gives a value; a CBUF byte is unspecified (nothing is listed),
and the engine is IDLE. The latches are unspecified, so nothing is said of them. The strap and the wired transport are the
constants without a body of log entries 3 and 4. -/
def Obligations.ResetLeavesTheStatedValues : Prop :=
  State.reset.devAddr = Config.devAddrStrap ∧ State.reset.transport = Config.wiredTransport ∧
  State.reset.ret = 0#32 ∧ State.reset.run = .idle ∧ State.reset.faultField = 0#4 ∧ statusReserved State.reset.status = 0#2 ∧
  State.reset.cp = 0#32 ∧ (∀ a, State.reset.cbuf.find a = none) ∧ State.reset.hist = []

/-- 70_reset_and_hazards.md R240: the host may assert reset in any state; DEV_ADDR is sampled from the strap, every element takes
its value of R32, the transport stays wired, and reset is the only exit from HALTED. -/
def Obligations.HostResetRestoresEveryElement : Prop :=
  (∀ s strap rest, s.script = .reset strap :: rest →
    ∃ t, step s = .next t ∧ t.devAddr = strap ∧ t.transport = s.transport ∧ t.ret = 0#32 ∧ t.status = 0#8 ∧ t.cp = 0#32 ∧
      (∀ a, t.cbuf.find a = none) ∧ t.hist = [] ∧ t.cfg = s.cfg ∧ t.script = rest) ∧
  (∀ s t, step s = .next t → s.run = .halted → t.run ≠ .halted → ∃ strap rest, s.script = .reset strap :: rest)

/-- The invariant holds right after reset. -/
def Obligations.ResetSatisfiesTheMachineInvariant : Prop := State.reset.Inv

/-- Every step keeps the invariant: STATUS stays legal (10_state.md R24), CBUF keeps its canonical form inside its size (R28), only a
BUSY engine is inside an operation, and every call it made is in H, the last one with the return value and the lock bit the engine
holds (20_memory.md R62). -/
def Obligations.EveryStepKeepsTheMachineInvariant : Prop := ∀ s t, s.Inv → step s = .next t → t.Inv

/-- 10_state.md R24: the fields of STATUS; RUN goes IDLE to BUSY at command issue, BUSY to IDLE at completion, BUSY to HALTED at a
fault, and leaves HALTED only by reset; FAULT is written at fault entry only; FAULT ≠ 0 exactly when HALTED. -/
def Obligations.StatusMovesOnlyAsTheRuleSays : Prop :=
  (∀ s : State, (s.run = .idle ↔ s.status.extractLsb' 0 2 = 0#2) ∧ (s.run = .busy ↔ s.status.extractLsb' 0 2 = 1#2) ∧
    (s.run = .halted ↔ s.status.extractLsb' 0 2 = 2#2) ∧ s.faultField = s.status.extractLsb' 2 4) ∧
  ∀ s t, s.Inv → step s = .next t →
    t.status.extractLsb' 6 2 = 0#2 ∧ t.status.extractLsb' 0 2 ≠ 3#2 ∧ (t.faultField ≠ 0#4 ↔ t.run = .halted) ∧
    t.faultField.toNat ≤ 6 ∧
    ((∃ strap rest, s.script = .reset strap :: rest) ∨
     (t.run = s.run ∧ t.faultField = s.faultField) ∨
     (s.run = .idle ∧ t.run = .busy ∧ t.faultField = s.faultField ∧ ∃ w rest, s.script = .issue w :: rest) ∨
     (s.run = .busy ∧ t.run = .idle ∧ t.faultField = s.faultField ∧ t.cp = s.cp + 1#32) ∨
     (s.run = .busy ∧ t.run = .halted ∧ s.faultField = 0#4 ∧ t.faultField ≠ 0#4))

-- ---------------------------------------------------------------- encoding and the step

/-- Decoding the encoding of a well-formed instruction gives it back, for every operand the format admits, and an ill-formed one
has no word that decodes (30_encoding.md R72, R73). -/
def Obligations.DecodeOfEncodeIsTheInstruction : Prop :=
  (∀ i : Instr, i.wf = true → decode (encode i) = some i) ∧ (∀ i : Instr, i.wf = false → ∀ w, decode w ≠ some i)

/-- Every legal word is the encoding of the one instruction it decodes to: no bit of a word is dropped. -/
def Obligations.EncodeOfDecodeIsTheWord : Prop := ∀ w i, decode w = some i → encode i = w ∧ i.wf = true

/-- 30_encoding.md R78: a word is illegal exactly when RSV ≠ 0, OP is 0x0 or 0xD to 0xF, M = 1 outside format G, or a must-be-zero
field of its format is not zero; an illegal command halts the engine with IllegalCommand and issues no transaction, whatever move
the host has next but a reset. -/
def Obligations.IllegalWordsAreTheListedOnes : Prop :=
  (∀ w : Command, decode w = none ↔
    (w.extractLsb' 69 3 ≠ 0#3 ∨
     w.extractLsb' 64 4 = 0x0#4 ∨ w.extractLsb' 64 4 = 0xD#4 ∨ w.extractLsb' 64 4 = 0xE#4 ∨ w.extractLsb' 64 4 = 0xF#4 ∨
     (w.getLsbD 68 = true ∧ ¬ (0x6#4 ≤ w.extractLsb' 64 4 ∧ w.extractLsb' 64 4 ≤ 0x9#4)) ∨
     (w.extractLsb' 64 4 = 0x3#4 ∧ (w.extractLsb' 39 25 ≠ 0#25 ∨ w.extractLsb' 0 32 ≠ 0#32)) ∨
     ((w.extractLsb' 64 4 = 0x5#4 ∨ w.extractLsb' 64 4 = 0xA#4 ∨ w.extractLsb' 64 4 = 0xB#4) ∧ w.extractLsb' 0 64 ≠ 0#64) ∨
     (w.extractLsb' 64 4 = 0xC#4 ∧ w.extractLsb' 0 32 ≠ 0#32))) ∧
  (∀ s, (∀ strap rest, s.script ≠ .reset strap :: rest) → s.run = .busy → decodeFields s.opc s.opa s.opb = none →
    ∃ t, step s = .next t ∧ t.run = .halted ∧ t.faultField = 4#4 ∧ t.hist = s.hist ∧ t.ret = s.ret ∧ t.cp = s.cp)

/-- 30_encoding.md R72: rows are mutually exclusive; a word that selects a row decodes to that row's operation, and a word that
selects none is illegal. -/
def Obligations.DecodeFollowsTheOneSelectedRow : Prop :=
  ∀ w : Command,
    (∀ r ∈ opcodeRows, ∀ r' ∈ opcodeRows, r.selects w = true → r'.selects w = true → r = r') ∧
    (∀ r ∈ opcodeRows, r.selects w = true → ∃ i, decode w = some i ∧ i.mnemonic = r.mnemonic) ∧
    ((∀ r ∈ opcodeRows, r.selects w = false) → decode w = none)

/-- 30_encoding.md R71: nine bytes, most significant first: OPC, then A with A[31:24] first, then B with B[31:24] first. -/
def Obligations.SerialisationIsBigEndian : Prop :=
  (∀ w : Command, w.toBytes =
    [w.opc, w.opa.extractLsb' 24 8, w.opa.extractLsb' 16 8, w.opa.extractLsb' 8 8, w.opa.extractLsb' 0 8,
     w.opb.extractLsb' 24 8, w.opb.extractLsb' 16 8, w.opb.extractLsb' 8 8, w.opb.extractLsb' 0 8]) ∧
  (∀ w : Command, decodeBytes w.toBytes = decode w) ∧
  (encode (.cfgPll 48000#32 12000000#32)).toBytes =
    [0x04#8, 0x00#8, 0x00#8, 0xBB#8, 0x80#8, 0x00#8, 0xB7#8, 0x1B#8, 0x00#8]

/-- Words written out from 30_encoding.md R70 to R73 and 95_test_vectors.md decode to the commands they stand for. -/
def Obligations.SampleWordsDecode : Prop :=
  decode 0x010000000900000003#72 = some (.send 9#32 3#32) ∧
  decode 0x030000003800000000#72 = some (.probe 0x38#32) ∧
  decode 0x040000BB8000B71B00#72 = some (.cfgPll 48000#32 12000000#32) ∧
  decode 0x050000000000000000#72 = some .waitLock ∧
  decode 0x1641A00000C1F00000#72 = some (.setLig 0x41A00000#32 0xC1F00000#32 true) ∧
  decode 0x190000000000000000#72 = some (.setHpg 0#32 0#32 true) ∧
  decode 0x0C0000AC4400000000#72 = some (.cfgSrc 44100#32) ∧
  decode 0x140000BB8000B71B00#72 = none ∧ decode 0x030000008000000000#72 = none

/-- A step runs the decoded command: when the engine is BUSY, its latches hold a legal command and the host has no move to make or
waits, the step is that command's engine step; and a command placed by the host's interface is the one that runs. (An IDLE engine
whose host has no move left stays as it is: the model's own convention, log entry 9.) -/
def Obligations.StepRunsTheDecodedCommand : Prop :=
  (∀ s, s.script = [] → s.run = .idle → step s = .next s) ∧
  (∀ s i, s.script = [] → s.run = .busy → decodeFields s.opc s.opa s.opb = some i → step s = exec i s) ∧
  (∀ s i rest, s.script = .wait :: rest → s.run = .busy → decodeFields s.opc s.opa s.opb = some i →
    step s = exec i { s with script := rest }) ∧
  (∀ (s : State) (i : Instr), s.script = [] → i.wf = true → step (s.withFetchWord 72 (encode i).toNat) = exec i (s.withFetchWord 72 (encode i).toNat))

/-- 30_encoding.md R70: a command is accepted only when RUN = IDLE; issue loads OPC, OPA and OPB from the word, makes RUN BUSY and
changes nothing else the host can see. A BUSY engine leaves the word waiting; a HALTED one never accepts it. -/
def Obligations.CommandIssueLoadsTheLatches : Prop :=
  (∀ s w rest, s.script = .issue w :: rest → s.run = .idle →
    ∃ t, step s = .next t ∧ t.opc = w.extractLsb' 64 8 ∧ t.opa = w.extractLsb' 32 32 ∧ t.opb = w.extractLsb' 0 32 ∧
      t.run = .busy ∧ t.faultField = s.faultField ∧ t.ret = s.ret ∧ t.cp = s.cp ∧ t.cbuf = s.cbuf ∧ t.hist = s.hist ∧
      t.devAddr = s.devAddr ∧ t.prog = Progress.start ∧ t.script = rest) ∧
  (∀ s w rest t, s.script = .issue w :: rest → s.run = .busy → step s = .next t → t.script = s.script) ∧
  (∀ s w rest, s.script = .issue w :: rest → s.run = .halted → step s = .next { s with script := rest })

-- ---------------------------------------------------------------- what every operation does

/-- The frame of the sequencer, the prober and the initializer operations. -/
def Obligations.SequencerAndInitializerFrame : Prop :=
  (∀ offset length, OperationFrame (.send offset length)) ∧ (∀ base rowCount, OperationFrame (.sendTbl base rowCount)) ∧
  (∀ addr, OperationFrame (.probe addr)) ∧ OperationFrame .initCore ∧ OperationFrame .disPll ∧
  (∀ fs, OperationFrame (.cfgSrc fs))

/-- The frame of the PLL operations. -/
def Obligations.PllFrame : Prop :=
  (∀ fs mclock, OperationFrame (.cfgPll fs mclock)) ∧ OperationFrame .waitLock

/-- The frame of the gain operations. -/
def Obligations.GainFrame : Prop :=
  (∀ l r m, OperationFrame (.setLig l r m)) ∧ (∀ l r m, OperationFrame (.setAxg l r m)) ∧
  (∀ l r m, OperationFrame (.setLog l r m)) ∧ (∀ l r m, OperationFrame (.setHpg l r m))

/-- 20_memory.md R56, R62: between resets H only grows, by at most one event a step; the event is the call with the responder's
whole answer, and only a BUSY engine makes a call. -/
def Obligations.HistoryGrowsByOneAnsweredCall : Prop :=
  ∀ s t, step s = .next t → (∀ strap rest, s.script ≠ .reset strap :: rest) →
    t.hist = s.hist ∨ (s.run = .busy ∧ t.run = .busy ∧ ∃ c, t.hist = s.hist ++ [s.answer c] ∧ eventCall (s.answer c) = c)

/-- 10_state.md R23: RET is written at completion only: by PROBE with 1 or 0, by every other operation that made a call with the last
return value; an operation without a call, and a fault, leave it. The last return value is that of the last call made (the last
clause). -/
def Obligations.RetIsWrittenAtCompletionOnly : Prop :=
  ∀ i s t, exec i s = .next t →
    (t.cp = s.cp → t.ret = s.ret) ∧
    (t.cp ≠ s.cp → s.prog.calls = 0 → t.ret = s.ret) ∧
    (t.cp ≠ s.cp → s.prog.calls ≠ 0 → (∀ addr, i ≠ .probe addr) → t.ret = s.prog.lastRet) ∧
    (t.cp ≠ s.cp → s.prog.calls ≠ 0 → (∃ addr, i = .probe addr) → t.ret = if 0 ≤ s.prog.lastRet.toInt then 1#32 else 0#32) ∧
    (t.cp = s.cp → t.prog.calls ≠ s.prog.calls → ∃ e, t.hist = s.hist ++ [e] ∧ t.prog.lastRet = eventRet e)

/-- 10_state.md R27: CP is 0 after reset, one more modulo 2^32 at a completion, unchanged at every other step, and no rule reads it:
an engine with another CP does the same. -/
def Obligations.CpCountsCompletionsAndIsNeverRead : Prop :=
  State.reset.cp = 0#32 ∧
  (∀ s t, step s = .next t → (∀ strap rest, s.script ≠ .reset strap :: rest) →
    ((t.cp = s.cp + 1#32 ∧ s.run = .busy ∧ t.run = .idle) ∨ t.cp = s.cp) ∧
    (s.run = .busy → t.run = .idle → t.cp = s.cp + 1#32)) ∧
  (∀ i s t c, exec i s = .next t → exec i { s with cp := c } = .next { t with cp := c + (t.cp - s.cp) })

/-- 20_memory.md R53: the same command from two engines with the same address, parameters and CBUF emits the same calls, whatever
the responder has answered, whatever RET, CP, STATUS and H hold. -/
def Obligations.SameCommandEmitsTheSameCalls : Prop :=
  ∀ i s t s' t', SameInputs s t → exec i s = .next s' → exec i t = .next t' →
    (s'.hist.drop s.hist.length).map eventCall = (t'.hist.drop t.hist.length).map eventCall

-- ---------------------------------------------------------------- Command Sequencer and Device Prober

/-- 40_sequencer.md R100: SendCommand is one write of the whole buffer to DEV_ADDR with no_stop = false, its return value is passed
through unchanged, and nothing but H is written. -/
def Obligations.SendCommandIsOneWriteToDevAddr : Prop :=
  ∀ s bytes, ∃ ret,
    (s.makeCall (s.sendCommand bytes)).hist = s.hist ++ [.write s.devAddr bytes false ret] ∧
    (s.makeCall (s.sendCommand bytes)).prog.lastRet = ret ∧
    (s.makeCall (s.sendCommand bytes)).ret = s.ret ∧ (s.makeCall (s.sendCommand bytes)).status = s.status ∧
    (s.makeCall (s.sendCommand bytes)).cp = s.cp ∧ Untouched s (s.makeCall (s.sendCommand bytes))

/-- 40_sequencer.md R101, R102: SEND sends the bytes of the range as they are, whatever their number, in one write; a range that
leaves CBUF (exact sum) faults BufferRange before any transaction. -/
def Obligations.SendTransmitsTheRangeAsItIs : Prop :=
  ∀ (offset length : Word) s, s.fresh →
    (offset.toNat + length.toNat ≤ s.cfg.cbufSize →
      ∃ t u, exec (.send offset length) s = .next t ∧ exec (.send offset length) t = .next u ∧
        Completes s [.write s.devAddr ((List.range length.toNat).map (fun k => s.readCbuf (offset.toNat + k))) false] u) ∧
    (s.cfg.cbufSize < offset.toNat + length.toNat → exec (.send offset length) s = .next (s.raise .bufferRange))

/-- 40_sequencer.md R103, R104: SENDTBL issues its rows in ascending order, each a write of TABLE_ROW_BYTES bytes; no row's answer
stops it; row_count = 0 issues nothing and leaves RET; a range that leaves CBUF faults before any row. (A byte of CBUF nothing has
written is drawn afresh at each row, log entry 5.) -/
def Obligations.SendTableIssuesEveryRowInOrder : Prop :=
  (∀ (base rowCount : Word) s, s.fresh → base.toNat + rowCount.toNat * s.cfg.tableRowBytes ≤ s.cfg.cbufSize →
    ∃ t, execN (.sendTbl base rowCount) (rowCount.toNat + 1) s = .next t ∧
      Completes s ((List.range rowCount.toNat).map (fun i => .write s.devAddr
        ((List.range s.cfg.tableRowBytes).map (fun k =>
          ({ s with seed := s.seed + i } : State).readCbuf (base.toNat + i * s.cfg.tableRowBytes + k))) false)) t) ∧
  (∀ (base rowCount : Word) s, s.prog.calls ≠ 0 → s.prog.calls < rowCount.toNat →
    ∃ t ret, exec (.sendTbl base rowCount) s = .next t ∧
      t.hist = s.hist ++ [.write s.devAddr ((List.range s.cfg.tableRowBytes).map (fun k =>
        s.readCbuf (base.toNat + s.prog.calls * s.cfg.tableRowBytes + k))) false ret]) ∧
  (∀ (base rowCount : Word) s, s.fresh → s.cfg.cbufSize < base.toNat + rowCount.toNat * s.cfg.tableRowBytes →
    exec (.sendTbl base rowCount) s = .next (s.raise .bufferRange))

/-- 40_sequencer.md R107, R108: PROBE issues one zero-length write to its operand address with no_stop = false; RET is 1 when the
answer is non-negative and 0 when it is negative; an address above 127 cannot be encoded. -/
def Obligations.ProbeReportsTheSignOfTheAnswer : Prop :=
  (∀ (addr : Word) s, s.fresh → ∃ t u ret, exec (.probe addr) s = .next t ∧ exec (.probe addr) t = .next u ∧
    t.hist = s.hist ++ [.write (addr.extractLsb' 0 7) [] false ret] ∧
    u.ret = (if 0 ≤ ret.toInt then 1#32 else 0#32) ∧
    CompletesWith (fun r => if 0 ≤ r.toInt then 1#32 else 0#32) s [.write (addr.extractLsb' 0 7) [] false] u) ∧
  (∀ a b : Word, decodeFields 0x03#8 a b = some (.probe a) ↔ a.toNat ≤ 127 ∧ b = 0#32)

-- ---------------------------------------------------------------- PLL Configurator

/-- 41_pll.md R122, R123, R124: fs is checked first and mclock second, each fault comes before any transaction, and a wrong master
clock is named by the family. -/
def Obligations.CfgPllValidatesFsThenMclock : Prop :=
  ∀ (fs mclock : Word) s, s.fresh →
    (fs.toNat ∉ [8000, 16000, 24000, 32000, 48000, 96000, 11025, 22050, 44100, 88200] →
      exec (.cfgPll fs mclock) s = .next (s.raise .badFs)) ∧
    (fs.toNat ∈ [8000, 16000, 24000, 32000, 48000, 96000] → mclock.toNat ∉ Config.mclkSet →
      exec (.cfgPll fs mclock) s = .next (s.raise .wrongMclk48)) ∧
    (fs.toNat ∈ [11025, 22050, 44100, 88200] → mclock.toNat ∉ Config.mclkSet →
      exec (.cfgPll fs mclock) s = .next (s.raise .wrongMclk441))

/-- 41_pll.md R121: the two families, their targets, and that within a family fs has no further effect. -/
def Obligations.FamilyAloneSelectsTheTarget : Prop :=
  (∀ fs, familyOf fs = some .f48 ↔ fs ∈ [8000, 16000, 24000, 32000, 48000, 96000]) ∧
  (∀ fs, familyOf fs = some .f441 ↔ fs ∈ [11025, 22050, 44100, 88200]) ∧
  familyTarget .f48 = 1024 * 48000 ∧ familyTarget .f441 = 1024 * 44100 ∧
  (∀ (fs fs' mclock : Word) s, familyOf fs.toNat = familyOf fs'.toNat → familyOf fs.toNat ≠ none →
    exec (.cfgPll fs mclock) s = exec (.cfgPll fs' mclock) s)

/-- 41_pll.md R134, R135: a CFGPLL that passes validation issues exactly one write of eight bytes to DEV_ADDR with no_stop = false:
the address of the block, m and n high byte first, control, enable; RET gets its return value. -/
def Obligations.CfgPllEmitsOneEightByteBlock : Prop :=
  Params.default.pllAddr = 0x4002#16 ∧
  ∀ (fs mclock : Word) s fam, s.fresh → familyOf fs.toNat = some fam → mclock.toNat ∈ Config.mclkSet →
    ∃ t u, exec (.cfgPll fs mclock) s = .next t ∧ exec (.cfgPll fs mclock) t = .next u ∧
      Completes s [.write s.devAddr
        [s.cfg.pllAddr.extractLsb' 8 8, s.cfg.pllAddr.extractLsb' 0 8,
         (pllSearch s.cfg.finMax (familyTarget fam) mclock.toNat).m.extractLsb' 8 8,
         (pllSearch s.cfg.finMax (familyTarget fam) mclock.toNat).m.extractLsb' 0 8,
         (pllSearch s.cfg.finMax (familyTarget fam) mclock.toNat).n.extractLsb' 8 8,
         (pllSearch s.cfg.finMax (familyTarget fam) mclock.toNat).n.extractLsb' 0 8,
         pllControl (pllSearch s.cfg.finMax (familyTarget fam) mclock.toNat), 0x01#8] false] u

/-- 41_pll.md R125: x is the least element of {1, 2, 3, 4} with mclock ≤ x · FIN_MAX, and 4 when no element qualifies; with the
default FIN_MAX x is 1 for the master clocks up to 14 MHz and 2 for the others. -/
def Obligations.InputDividerIsTheLeastThatQualifies : Prop :=
  Params.default.finMax = 14000000 ∧
  (∀ target, ∀ mc ∈ Config.mclkSet, (pllSearch 14000000 target mc).x = if mc ≤ 14000000 then 1 else 2) ∧
  ∀ finMax target mclock,
    (∀ k, 1 ≤ k → k < (pllSearch finMax target mclock).x → k * finMax < mclock) ∧
    (mclock ≤ (pllSearch finMax target mclock).x * finMax ∨ (pllSearch finMax target mclock).x = 4) ∧
    1 ≤ (pllSearch finMax target mclock).x ∧ (pllSearch finMax target mclock).x ≤ 4

/-- 41_pll.md R126, R127: r is floor(ratio) clamped to 1..8, and rem / mclock is ratio − r, in [0, 1) whenever the clamp did not
act; with the defaults r is 3, 4, 5 or 6. -/
def Obligations.MultiplierIsTheClampedFloor : Prop :=
  (∀ fam, ∀ mc ∈ Config.mclkSet, 3 ≤ (pllSearch Params.default.finMax (familyTarget fam) mc).r ∧
    (pllSearch Params.default.finMax (familyTarget fam) mc).r ≤ 6) ∧
  ∀ finMax target mclock, 0 < mclock →
    ((pllSearch finMax target mclock).r : ℤ) =
      clamp ⌊((target : ℚ) * (pllSearch finMax target mclock).x) / mclock⌋ 1 8 ∧
    ((pllRem target (pllSearch finMax target mclock).x (pllSearch finMax target mclock).r mclock : ℚ) / mclock =
      (target : ℚ) * (pllSearch finMax target mclock).x / mclock - (pllSearch finMax target mclock).r) ∧
    (1 ≤ ⌊((target : ℚ) * (pllSearch finMax target mclock).x) / mclock⌋ →
     ⌊((target : ℚ) * (pllSearch finMax target mclock).x) / mclock⌋ ≤ 8 →
      0 ≤ pllRem target (pllSearch finMax target mclock).x (pllSearch finMax target mclock).r mclock ∧
      pllRem target (pllSearch finMax target mclock).x (pllSearch finMax target mclock).r mclock < mclock)

/-- 41_pll.md R128: BestFrac is the candidate that minimises (error, m, n) in lexicographic order, for every remainder. -/
def Obligations.BestFracIsTheLexicographicMinimum : Prop :=
  ∀ (rem : ℤ) (den : ℕ), 0 < den →
    FracCandidate (bestFrac rem den).1 (bestFrac rem den).2 ∧
    ∀ n m, FracCandidate n m → (n, m) ≠ bestFrac rem den → FracBefore rem den (bestFrac rem den).1 (bestFrac rem den).2 n m

/-- 41_pll.md R131: the record the search produces: x in 1..4, r in 1..8, m ≥ 1, n < m, both within 13 bits, fractional exactly when
n ≠ 0 (R130), enabled always. -/
def Obligations.SearchResultsAreInRange : Prop :=
  ∀ finMax target mclock, 0 < mclock →
    let p := pllSearch finMax target mclock
    1 ≤ p.x ∧ p.x ≤ 4 ∧ 1 ≤ p.r ∧ p.r ≤ 8 ∧ 1 ≤ p.m.toNat ∧ p.m.toNat ≤ 8191 ∧ p.n.toNat < p.m.toNat ∧
    (p.fractional = true ↔ p.n.toNat ≠ 0) ∧ p.enabled = true ∧
    (p.n.toNat, p.m.toNat) = bestFrac (pllRem target p.x p.r mclock) mclock

/-- 41_pll.md R132, R133: the control byte's fields (bits 7:6 zero, 5:3 r mod 8, 2:1 x − 1, 0 fractional), the two bytes the document
proves, and the enable byte. -/
def Obligations.ControlAndEnableByteLayout : Prop :=
  (∀ (x r : ℕ) (n m : Half) (f e : Bool), 1 ≤ x → x ≤ 4 → 1 ≤ r → r ≤ 8 →
    (pllControl ⟨x, r, n, m, f, e⟩).extractLsb' 6 2 = 0#2 ∧
    (pllControl ⟨x, r, n, m, f, e⟩).extractLsb' 3 3 = BitVec.ofNat 3 (r % 8) ∧
    (pllControl ⟨x, r, n, m, f, e⟩).extractLsb' 1 2 = BitVec.ofNat 2 (x - 1) ∧
    (pllControl ⟨x, r, n, m, f, e⟩).getLsbD 0 = f) ∧
  (∀ n m, pllControl ⟨1, 4, n, m, true, true⟩ = 0x21#8 ∧ pllControl ⟨1, 5, n, m, true, true⟩ = 0x29#8) ∧
  (∀ p, pllEnable p = if p.enabled then 0x01#8 else 0x00#8) ∧
  (∀ finMax target mclock, pllEnable (pllSearch finMax target mclock) = 0x01#8)

/-- 41_pll.md R137: all 24 admitted pairs with the defaults of FIN_MAX and PLL_ADDR: x, r, n, m, control, and the eight bytes emitted
as one number, first byte most significant; f_out is f_target for every pair. Integer mode arises in two rows only (R130). -/
def Obligations.SearchResultsOfAllAdmittedPairs : Prop :=
  Params.default.finMax = 14000000 ∧
  (Config.mclkSet.map (fun mc => let p := pllSearch 14000000 Config.fTarget48 mc
      (p.x, p.r, p.n.toNat, p.m.toNat, (pllControl p).toNat, bigEndian (registerCommand Params.default.pllAddr (pllBlock p)) 0)) =
    [(1, 6, 18, 125, 0x31, 0x4002007D00123101), (1, 4, 12, 125, 0x21, 0x4002007D000C2101),
     (1, 4, 0, 1, 0x20, 0x4002000100002001), (1, 3, 1269, 1625, 0x19, 0x4002065904F51901),
     (2, 6, 62, 75, 0x33, 0x4002004B003E3301), (2, 5, 3, 25, 0x2B, 0x4002001900032B01),
     (2, 4, 204, 205, 0x23, 0x400200CD00CC2301), (2, 4, 796, 825, 0x23, 0x40020339031C2301),
     (2, 4, 12, 125, 0x23, 0x4002007D000C2301), (2, 4, 0, 1, 0x22, 0x4002000100002201),
     (2, 3, 1269, 1625, 0x1B, 0x4002065904F51B01), (2, 3, 721, 1125, 0x1B, 0x4002046502D11B01)]) ∧
  (Config.mclkSet.map (fun mc => let p := pllSearch 14000000 Config.fTarget441 mc
      (p.x, p.r, p.n.toNat, p.m.toNat, (pllControl p).toNat, bigEndian (registerCommand Params.default.pllAddr (pllBlock p)) 0)) =
    [(1, 5, 403, 625, 0x29, 0x4002027101932901), (1, 3, 477, 625, 0x19, 0x4002027101DD1901),
     (1, 3, 27, 40, 0x19, 0x40020028001B1901), (1, 3, 3849, 8125, 0x19, 0x40021FBD0F091901),
     (2, 6, 34, 125, 0x33, 0x4002007D00223301), (2, 4, 88, 125, 0x23, 0x4002007D00582301),
     (2, 4, 604, 1025, 0x23, 0x40020401025C2301), (2, 4, 772, 1375, 0x23, 0x4002055F03042301),
     (2, 3, 477, 625, 0x1B, 0x4002027101DD1B01), (2, 3, 27, 40, 0x1B, 0x40020028001B1B01),
     (2, 3, 3849, 8125, 0x1B, 0x40021FBD0F091B01), (2, 3, 647, 1875, 0x1B, 0x4002075302871B01)]) ∧
  (∀ fam, ∀ mc ∈ Config.mclkSet, fOut mc (pllSearch 14000000 (familyTarget fam) mc) = familyTarget fam)

/-- 41_pll.md R140: f_out is within 5 Hz of f_target for every admitted pair (with the default FIN_MAX), the error being 0. -/
def Obligations.OutputFrequencyMeetsTheTolerance : Prop :=
  ∀ fam, ∀ mc ∈ Config.mclkSet,
    |fOut mc (pllSearch Params.default.finMax (familyTarget fam) mc) - familyTarget fam| ≤ 5 ∧
    fOut mc (pllSearch Params.default.finMax (familyTarget fam) mc) = familyTarget fam

/-- 41_pll.md R141: the corners other parameters reach: r clamped up to 1 gives (0, 1), r clamped down to 8 gives (8190, 8191) and
R = 000, x saturates to 4, and a denominator above M_MAX leaves a non-zero error; with the defaults none of the four happens. -/
def Obligations.SearchCornersAreDefined : Prop :=
  (∀ finMax target mclock, let p := pllSearch finMax target mclock
    target * p.x < mclock → p.r = 1 ∧ p.n = 0#16 ∧ p.m = 1#16) ∧
  (∀ finMax target mclock, 0 < mclock → let p := pllSearch finMax target mclock
    9 * mclock ≤ target * p.x → p.r = 8 ∧ p.n = 8190#16 ∧ p.m = 8191#16 ∧ (pllControl p).extractLsb' 3 3 = 0#3) ∧
  (∀ finMax target mclock, 4 * finMax < mclock → (pllSearch finMax target mclock).x = 4) ∧
  (∀ (rem : ℤ) (den : ℕ), 0 < rem → rem < den → 8191 < den / Nat.gcd rem.toNat den →
    fracErr rem den (bestFrac rem den).1 (bestFrac rem den).2 ≠ 0) ∧
  (∀ fam, ∀ mc ∈ Config.mclkSet, let p := pllSearch Params.default.finMax (familyTarget fam) mc
    mc ≤ familyTarget fam * p.x ∧ familyTarget fam * p.x < 9 * mc ∧ mc ≤ 4 * Params.default.finMax ∧
    mc / Nat.gcd (pllRem (familyTarget fam) p.x p.r mc).toNat mc ≤ 8191)

-- ---------------------------------------------------------------- Lock Poller

/-- 41_pll.md R145: WAITLOCK writes the two status-register address bytes with no_stop = true, reads six bytes with no_stop = false,
completes with the read's return value when bit 1 of the sixth byte is set, and starts the next cycle when it is not. The last
three clauses say the same of every cycle: the read follows every address write, and the lock bit of its buffer decides. -/
def Obligations.WaitLockWritesThenReadsUntilLock : Prop :=
  (∀ s, s.fresh → ∃ t u v r1 r2 buf,
    exec .waitLock s = .next t ∧ exec .waitLock t = .next u ∧ exec .waitLock u = .next v ∧
    t.hist = s.hist ++ [.write s.devAddr [s.cfg.pllStatusAddr.extractLsb' 8 8, s.cfg.pllStatusAddr.extractLsb' 0 8] true r1] ∧
    u.hist = t.hist ++ [.read s.devAddr 6 false r2 buf] ∧ buf.length = 6 ∧
    ((buf[5]?.map (fun b => b.getLsbD 1) = some true ∧ v.ret = r2 ∧
        Completes s [.write s.devAddr [s.cfg.pllStatusAddr.extractLsb' 8 8, s.cfg.pllStatusAddr.extractLsb' 0 8] true,
          .read s.devAddr 6 false] v) ∨
     (buf[5]?.map (fun b => b.getLsbD 1) = some false ∧ v.status = s.status ∧ v.ret = s.ret ∧ v.cp = s.cp ∧
        ∃ r3, v.hist = u.hist ++ [.write s.devAddr [s.cfg.pllStatusAddr.extractLsb' 8 8, s.cfg.pllStatusAddr.extractLsb' 0 8] true r3]))) ∧
  (∀ s, s.prog.calls % 2 = 1 → ∃ t r buf, exec .waitLock s = .next t ∧
    t.hist = s.hist ++ [.read s.devAddr 6 false r buf] ∧ buf.length = 6 ∧
    buf[5]?.map (fun b => b.getLsbD 1) = some t.prog.locked ∧ t.prog.lastRet = r ∧ t.prog.calls = s.prog.calls + 1 ∧
    t.status = s.status ∧ t.ret = s.ret ∧ t.cp = s.cp) ∧
  (∀ s, s.prog.calls % 2 = 0 → s.prog.calls ≠ 0 → s.prog.locked = true →
    ∃ t, exec .waitLock s = .next t ∧ t.ret = s.prog.lastRet ∧ t.cp = s.cp + 1#32 ∧ t.run = .idle ∧ t.hist = s.hist) ∧
  (∀ s, s.prog.calls % 2 = 0 → s.prog.calls ≠ 0 → s.prog.locked = false →
    ∃ t r, exec .waitLock s = .next t ∧ t.status = s.status ∧ t.ret = s.ret ∧ t.cp = s.cp ∧ t.prog.calls = s.prog.calls + 1 ∧
      t.hist = s.hist ++ [.write s.devAddr [s.cfg.pllStatusAddr.extractLsb' 8 8, s.cfg.pllStatusAddr.extractLsb' 0 8] true r])

/-- 41_pll.md R146: the lock test reads bit 1 of the sixth byte and no other bit or byte of the buffer: of a read's answer WAITLOCK
keeps the test's outcome and the return value, and what H holds of the buffers changes nothing it does. -/
def Obligations.LockTestReadsOneBit : Prop :=
  Params.default.pllStatusAddr = 0x4002#16 ∧
  (∀ buf, lockSeen buf = true ↔ buf[5]?.map (fun b => b &&& 0x02#8) = some 0x02#8) ∧
  (∀ s, s.prog.calls % 2 = 1 → ∃ r buf, exec .waitLock s = .next { s with
    hist := s.hist ++ [.read s.devAddr 6 false r buf], seed := s.seed + 1, prog := ⟨s.prog.calls + 1, r, lockSeen buf⟩ }) ∧
  (∀ s h t, exec .waitLock s = .next t → ∃ t', exec .waitLock { s with hist := h } = .next t' ∧
    t'.status = t.status ∧ t'.ret = t.ret ∧ t'.cp = t.cp ∧ t'.prog.calls = t.prog.calls ∧
    (t'.hist.drop h.length).map eventCall = (t.hist.drop s.hist.length).map eventCall)

/-- 41_pll.md R147: the poller has no error path: whatever the address write returned the read is issued, and whatever the read
returned the buffer decides. -/
def Obligations.WaitLockIgnoresReturnValues : Prop :=
  ∀ s r, ∃ t t', exec .waitLock s = .next t ∧
    exec .waitLock { s with prog := { s.prog with lastRet := r } } = .next t' ∧
    (t.cp = s.cp → t' = t) ∧ (t.cp ≠ s.cp → t' = { t with ret := r })

/-- 41_pll.md R148: an unbounded poll. For every number of cycles, either one of them ends in a read whose sixth byte has bit 1 set,
or the engine is still BUSY with FAULT as it was, RET and CP unchanged and two more events in H for each cycle; and while no lock
is seen only reset takes the machine out of BUSY. -/
def Obligations.WaitLockPollsWithoutBound : Prop :=
  (∀ n s, s.prog.calls % 2 = 0 → (s.prog.calls = 0 ∨ s.prog.locked = false) →
    (∃ k t r buf, 1 ≤ k ∧ k ≤ n ∧ execN .waitLock (2 * k) s = .next t ∧
      t.hist.getLast? = some (.read s.devAddr 6 false r buf) ∧ buf[5]?.map (fun b => b.getLsbD 1) = some true) ∨
    (∃ t, execN .waitLock (2 * n) s = .next t ∧ t.status = s.status ∧ t.ret = s.ret ∧ t.cp = s.cp ∧
      t.hist.length = s.hist.length + 2 * n ∧ s.hist <+: t.hist ∧ t.prog.calls = s.prog.calls + 2 * n)) ∧
  (∀ s t, s.run = .busy → decodeFields s.opc s.opa s.opb = some .waitLock →
    (s.prog.calls = 0 ∨ s.prog.calls % 2 = 1 ∨ s.prog.locked = false) → step s = .next t →
    t.run = .busy ∨ ∃ strap rest, s.script = .reset strap :: rest)

-- ---------------------------------------------------------------- Gain Quantizers

/-- 42_gain.md R161: InCode under EXACT evaluation is clamp(floor((gain + 12) / 3) + 1, 1, 7) of the operand's exact value; below
−12 dB it is 1 and above +6 dB it is 7. -/
def Obligations.InputCodeIsTheClampedFloor : Prop :=
  ∀ p, f32Finite p →
    (inCode .exactReal p : ℤ) = clamp (⌊(f32Real p + 12) / 3⌋ + 1) 1 7 ∧
    (f32Real p < -12 → inCode .exactReal p = 1) ∧ (6 < f32Real p → inCode .exactReal p = 7)

/-- 42_gain.md R163: OutCode under EXACT evaluation is clamp(floor(gain + 57), 0, 63) of the operand's exact value. -/
def Obligations.OutputCodeIsTheClampedFloor : Prop :=
  ∀ p, f32Finite p →
    (outCode .exactReal p : ℤ) = clamp ⌊f32Real p + 57⌋ 0 63 ∧
    (f32Real p < -57 → outCode .exactReal p = 0) ∧ (6 < f32Real p → outCode .exactReal p = 63)

/-- 42_gain.md R179: clamping is silent, so the code of every pattern is inside its scheme's interval, in both evaluation modes. -/
def Obligations.GainCodesStayInTheirInterval : Prop :=
  ∀ mode p, 1 ≤ inCode mode p ∧ inCode mode p ≤ 7 ∧ outCode mode p ≤ 63

/-- 42_gain.md R166: F32 evaluation never gives a lower code than EXACT and at most the next one (it can round a sum up onto a
threshold, not past it). -/
def Obligations.BinaryEvaluationIsAtMostOneCodeHigher : Prop :=
  ∀ p, f32Finite p →
    inCode .exactReal p ≤ inCode .binary32 p ∧ inCode .binary32 p ≤ inCode .exactReal p + 1 ∧
    outCode .exactReal p ≤ outCode .binary32 p ∧ outCode .binary32 p ≤ outCode .exactReal p + 1

/-- 42_gain.md R167: the infinities, both zeros, every finite operand compared by value, subnormals too, and NaN: a NaN in an
examined operand faults BadGain before any transaction. The patterns that are NaN are those of 00_scope.md R13. -/
def Obligations.SpecialGainOperands : Prop :=
  (∀ mode, inCode mode 0x7F800000#32 = 7 ∧ outCode mode 0x7F800000#32 = 63 ∧
    inCode mode 0xFF800000#32 = 1 ∧ outCode mode 0xFF800000#32 = 0 ∧
    inCode mode 0x00000000#32 = 5 ∧ outCode mode 0x00000000#32 = 57 ∧
    inCode mode 0x80000000#32 = 5 ∧ outCode mode 0x80000000#32 = 57) ∧
  (∀ p t, f32Finite p → (f32AtLeast p t = true ↔ (t : ℚ) ≤ f32Real p)) ∧
  (∀ p : Word, f32IsNaN p = true ↔ p.extractLsb' 23 8 = 0xFF#8 ∧ p.extractLsb' 0 23 ≠ 0#23) ∧
  (∀ l r m s, s.fresh → (f32IsNaN l = true ∨ f32IsNaN r = true) →
    exec (.setLig l r false) s = .next (s.raise .badGain) ∧ exec (.setAxg l r false) s = .next (s.raise .badGain) ∧
    exec (.setLog l r m) s = .next (s.raise .badGain) ∧ exec (.setHpg l r m) s = .next (s.raise .badGain))

/-- 42_gain.md R162: a muted input operation does not examine its operands and emits code 0, which no unmuted one does. -/
def Obligations.MutedInputIgnoresItsOperands : Prop :=
  ∀ l r s,
    exec (.setLig l r true) s = exec (.setLig 0#32 0#32 true) s ∧ exec (.setAxg l r true) s = exec (.setAxg 0#32 0#32 true) s ∧
    inputCode s true l = 0#8 ∧ inputCode s false l ≠ 0#8

/-- 42_gain.md R168, R169, R170, R171: the four byte packings, field by field; in the output packings mute changes bit 1 only. -/
def Obligations.BytePackings : Prop :=
  (∀ c : Byte, c.toNat < 8 →
    (lineInByte c).getLsbD 0 = true ∧ (lineInByte c).extractLsb' 1 3 = c.extractLsb' 0 3 ∧ (lineInByte c).extractLsb' 4 4 = 0#4 ∧
    auxInByte c = c) ∧
  (∀ (c : Byte) (mute : Bool), c.toNat < 64 →
    (lineOutByte c mute).extractLsb' 2 6 = c.extractLsb' 0 6 ∧ (lineOutByte c mute).getLsbD 1 = !mute ∧
    (lineOutByte c mute).getLsbD 0 = false ∧
    (hpOutByte c mute).extractLsb' 2 6 = c.extractLsb' 0 6 ∧ (hpOutByte c mute).getLsbD 1 = !mute ∧
    (hpOutByte c mute).getLsbD 0 = true) ∧
  hpOutByte 57#8 true = 0xE5#8

/-- 42_gain.md R174: SETLIG: two writes, left first, of the Line Input bytes; code 0 when muted; BadGain on an unmuted NaN. -/
def Obligations.SetLineInputGainRun : Prop :=
  ∀ l r m s, s.fresh →
    (m = false → (f32IsNaN l || f32IsNaN r) = true → exec (.setLig l r m) s = .next (s.raise .badGain)) ∧
    ((m = true ∨ (f32IsNaN l || f32IsNaN r) = false) →
      ∃ t u v, exec (.setLig l r m) s = .next t ∧ exec (.setLig l r m) t = .next u ∧ exec (.setLig l r m) u = .next v ∧
        Completes s
          [.write s.devAddr [s.cfg.lineInL.extractLsb' 8 8, s.cfg.lineInL.extractLsb' 0 8,
            ((if m then 0#8 else BitVec.ofNat 8 (inCode s.cfg.gainEval l)) <<< 1) ||| 1#8] false,
           .write s.devAddr [s.cfg.lineInR.extractLsb' 8 8, s.cfg.lineInR.extractLsb' 0 8,
            ((if m then 0#8 else BitVec.ofNat 8 (inCode s.cfg.gainEval r)) <<< 1) ||| 1#8] false] v)

/-- 42_gain.md R175: SETAXG: two writes, left first, of the codes themselves; code 0 when muted; BadGain on an unmuted NaN. -/
def Obligations.SetAuxInputGainRun : Prop :=
  ∀ l r m s, s.fresh →
    (m = false → (f32IsNaN l || f32IsNaN r) = true → exec (.setAxg l r m) s = .next (s.raise .badGain)) ∧
    ((m = true ∨ (f32IsNaN l || f32IsNaN r) = false) →
      ∃ t u v, exec (.setAxg l r m) s = .next t ∧ exec (.setAxg l r m) t = .next u ∧ exec (.setAxg l r m) u = .next v ∧
        Completes s
          [.write s.devAddr [s.cfg.auxInL.extractLsb' 8 8, s.cfg.auxInL.extractLsb' 0 8,
            if m then 0#8 else BitVec.ofNat 8 (inCode s.cfg.gainEval l)] false,
           .write s.devAddr [s.cfg.auxInR.extractLsb' 8 8, s.cfg.auxInR.extractLsb' 0 8,
            if m then 0#8 else BitVec.ofNat 8 (inCode s.cfg.gainEval r)] false] v)

/-- 42_gain.md R176: SETLOG: two writes, left first, of (code << 2) | (mute ? 0 : 2); BadGain on a NaN, muted or not. -/
def Obligations.SetLineOutputGainRun : Prop :=
  ∀ l r m s, s.fresh →
    ((f32IsNaN l || f32IsNaN r) = true → exec (.setLog l r m) s = .next (s.raise .badGain)) ∧
    ((f32IsNaN l || f32IsNaN r) = false →
      ∃ t u v, exec (.setLog l r m) s = .next t ∧ exec (.setLog l r m) t = .next u ∧ exec (.setLog l r m) u = .next v ∧
        Completes s
          [.write s.devAddr [s.cfg.lineOutL.extractLsb' 8 8, s.cfg.lineOutL.extractLsb' 0 8,
            (BitVec.ofNat 8 (outCode s.cfg.gainEval l) <<< 2) ||| (if m then 0#8 else 2#8)] false,
           .write s.devAddr [s.cfg.lineOutR.extractLsb' 8 8, s.cfg.lineOutR.extractLsb' 0 8,
            (BitVec.ofNat 8 (outCode s.cfg.gainEval r) <<< 2) ||| (if m then 0#8 else 2#8)] false] v)

/-- 42_gain.md R177: SETHPG: two writes, left first, of (code << 2) | (mute ? 1 : 3); BadGain on a NaN, muted or not. -/
def Obligations.SetHeadphoneGainRun : Prop :=
  ∀ l r m s, s.fresh →
    ((f32IsNaN l || f32IsNaN r) = true → exec (.setHpg l r m) s = .next (s.raise .badGain)) ∧
    ((f32IsNaN l || f32IsNaN r) = false →
      ∃ t u v, exec (.setHpg l r m) s = .next t ∧ exec (.setHpg l r m) t = .next u ∧ exec (.setHpg l r m) u = .next v ∧
        Completes s
          [.write s.devAddr [s.cfg.hpOutL.extractLsb' 8 8, s.cfg.hpOutL.extractLsb' 0 8,
            (BitVec.ofNat 8 (outCode s.cfg.gainEval l) <<< 2) ||| (if m then 1#8 else 3#8)] false,
           .write s.devAddr [s.cfg.hpOutR.extractLsb' 8 8, s.cfg.hpOutR.extractLsb' 0 8,
            (BitVec.ofNat 8 (outCode s.cfg.gainEval r) <<< 2) ||| (if m then 1#8 else 3#8)] false] v)

-- ---------------------------------------------------------------- Core/SRC Initializer

/-- 43_core_src.md R190: INITCORE: one 3-byte write of CLKCTL_DISABLE to the clock-control register; no fault. -/
def Obligations.InitCoreWritesTheClockControl : Prop :=
  ∀ s, s.fresh → ∃ t u, exec .initCore s = .next t ∧ exec .initCore t = .next u ∧
    Completes s [.write s.devAddr [s.cfg.clkctlAddr.extractLsb' 8 8, s.cfg.clkctlAddr.extractLsb' 0 8, s.cfg.clkctlDisable]
      false] u

/-- 43_core_src.md R191: DISPLL: one write of PLL_DISABLE_PATTERN to the block CFGPLL writes; no fault. An admitted pattern has six
bytes, the last with bit 0 clear. -/
def Obligations.DisablePllWritesThePattern : Prop :=
  Params.default.disableWf = true ∧
  (∀ p : Params, p.disableWf = true → ∃ b0 b1 b2 b3 b4 b5, p.pllDisable = [b0, b1, b2, b3, b4, b5] ∧ b5.getLsbD 0 = false) ∧
  ∀ s, s.fresh → ∃ t u, exec .disPll s = .next t ∧ exec .disPll t = .next u ∧
    Completes s [.write s.devAddr ([s.cfg.pllAddr.extractLsb' 8 8, s.cfg.pllAddr.extractLsb' 0 8] ++ s.cfg.pllDisable) false] u

/-- 43_core_src.md R192: CFGSRC: BadFs outside the ten rates, before any transaction; otherwise the commands of SRC_WRITES(fs) in list
order, one write each; with none, no transaction, RET unchanged and CP one more. The third clause says it of the parameter itself,
where the record gives fs one list; what the record's list form means beyond that is SrcWritesAreTheFirstEntryOfTheRate. -/
def Obligations.ConfigureSrcIssuesItsWritesInOrder : Prop :=
  (∀ (fs : Word) s, s.fresh → fs.toNat ∉ [8000, 16000, 24000, 32000, 48000, 96000, 11025, 22050, 44100, 88200] →
    exec (.cfgSrc fs) s = .next (s.raise .badFs)) ∧
  (∀ (fs : Word) s, s.fresh → fs.toNat ∈ [8000, 16000, 24000, 32000, 48000, 96000, 11025, 22050, 44100, 88200] →
    ∃ t, execN (.cfgSrc fs) ((srcWritesFor s.cfg fs.toNat).length + 1) s = .next t ∧
      Completes s ((srcWritesFor s.cfg fs.toNat).map (fun bytes => .write s.devAddr bytes false)) t) ∧
  (∀ (fs : Word) (cmds : List (List Byte)) s, s.fresh →
    fs.toNat ∈ [8000, 16000, 24000, 32000, 48000, 96000, 11025, 22050, 44100, 88200] →
    (fs.toNat, cmds) ∈ s.cfg.srcWrites → (∀ e ∈ s.cfg.srcWrites, e.1 = fs.toNat → e.2 = cmds) →
    ∃ t, execN (.cfgSrc fs) (cmds.length + 1) s = .next t ∧
      Completes s (cmds.map (fun bytes => .write s.devAddr bytes false)) t) ∧
  (∀ (fs : Word) s, s.fresh → fs.toNat ∈ [8000, 16000, 24000, 32000, 48000, 96000, 11025, 22050, 44100, 88200] →
    srcWritesFor s.cfg fs.toNat = [] → ∃ t, exec (.cfgSrc fs) s = .next t ∧ t.hist = s.hist ∧ t.ret = s.ret ∧
      t.cp = s.cp + 1#32 ∧ t.run = .idle)

/-- Log entry 16, the model's own choice: the parameter SRC_WRITES is held as a list of pairs, the first entry of a rate counts, and a
rate that is not listed has no command (43_core_src.md R193 gives a function and no form for it). -/
def Obligations.SrcWritesAreTheFirstEntryOfTheRate : Prop :=
  ∀ (p : Params) (fs : Nat),
    (∀ before cmds after, p.srcWrites = before ++ (fs, cmds) :: after → (∀ e ∈ before, e.1 ≠ fs) → srcWritesFor p fs = cmds) ∧
    ((∀ e ∈ p.srcWrites, e.1 ≠ fs) → srcWritesFor p fs = []) ∧ srcWritesFor Params.default fs = []

-- ---------------------------------------------------------------- faults

/-- 60_exceptions.md R211: the codes; R216: `raise F` writes the code and HALTED and does nothing else. -/
def Obligations.RaiseWritesTheCodeAndHalts : Prop :=
  (faultCode .badFs = 1#4 ∧ faultCode .wrongMclk48 = 2#4 ∧ faultCode .wrongMclk441 = 3#4 ∧ faultCode .illegalCommand = 4#4 ∧
    faultCode .bufferRange = 5#4 ∧ faultCode .badGain = 6#4) ∧
  (∀ (f : FaultCode) (s : State), (s.raise f).faultField = faultCode f ∧ (s.raise f).run = .halted ∧
    statusReserved (s.raise f).status = statusReserved s.status ∧ s.raise f = { s with status := (s.raise f).status })

/-- 60_exceptions.md R217: a fault comes before any transport call of its operation and appends nothing to H; WAITLOCK, PROBE,
INITCORE and DISPLL raise none. -/
def Obligations.FaultsPrecedeEveryTransaction : Prop :=
  (∀ i s t, exec i s = .next t → s.run ≠ .halted → t.run = .halted →
    s.prog.calls = 0 ∧ t.hist = s.hist ∧ t.ret = s.ret ∧ t.cp = s.cp ∧ ∃ f, t = s.raise f) ∧
  (∀ i s t, (i = .waitLock ∨ i = .initCore ∨ i = .disPll ∨ ∃ addr, i = .probe addr) → exec i s = .next t →
    s.run ≠ .halted → t.run ≠ .halted)

/-- 60_exceptions.md R218: HALTED is terminal: until reset the engine makes no call and changes no state, and a command word presented
to it is not accepted and has no effect. The host may still write CBUF (70_reset_and_hazards.md R248): a step of the host's write
changes that byte alone, every other step nothing but the host's list of moves (log entry 9). That a HALTED machine whose host has
no move left ends in the fault `halted` is the model's choice, log entry 10. -/
def Obligations.HaltedIsTerminal : Prop :=
  (∀ s t, s.run = .halted → step s = .next t →
    (∃ strap rest, s.script = .reset strap :: rest) ∨
    (∃ a b rest, s.script = .writeCbuf a b :: rest ∧ a < s.cfg.cbufSize ∧
      t = { s with cbuf := s.cbuf.write a b, script := rest }) ∨
    ((∀ a b rest, s.script ≠ .writeCbuf a b :: rest) ∧ t = { s with script := s.script.tail })) ∧
  (∀ s m rest, s.run = .halted → s.script = m :: rest → (m = .wait ∨ ∃ w, m = .issue w) →
    step s = .next { s with script := rest }) ∧
  (∀ s, s.run = .halted → s.script = [] → step s = .fault (.halted s.faultField))

-- ---------------------------------------------------------------- the host port

/-- 20_memory.md R50, R59: a byte the host writes while the engine is not BUSY is what every later read finds, and every other byte,
and everything else, is as before. -/
def Obligations.HostWriteIsReadBack : Prop :=
  ∀ s a b rest, s.script = .writeCbuf a b :: rest → (s.run = .idle ∨ s.run = .halted) → a < s.cfg.cbufSize →
    ∃ t, step s = .next t ∧ t.cbuf.find a = some b ∧ t.readCbuf a = b ∧
      (∀ a', a' ≠ a → t.cbuf.find a' = s.cbuf.find a' ∧ t.readCbuf a' = s.readCbuf a') ∧
      t = { s with cbuf := t.cbuf, script := rest }

/-- 70_reset_and_hazards.md R248: a host that would issue a command or write CBUF while the engine is BUSY cannot: the engine takes
its step as if the host had no move, and the move is still to come. -/
def Obligations.BusyEngineBlocksTheHost : Prop :=
  ∀ s m rest, s.run = .busy → s.script = m :: rest → ((∃ w, m = .issue w) ∨ ∃ a b, m = .writeCbuf a b) →
    ∃ t, step { s with script := [] } = .next t ∧ step s = .next { t with script := s.script }
end

