-- ==== Sys2Proof/Laws/Decode.lean ====
section
/-! SUPPORT. The command word: the fields of an assembled word, the assembled word of the fields, the serialisation. -/

namespace Sys2Proof

@[simp] theorem Command.opc_ofFields (opc : Byte) (a b : Word) : (Command.ofFields opc a b).opc = opc := by
  apply BitVec.eq_of_toNat_eq
  have ho := opc.isLt; have ha := a.isLt; have hb := b.isLt
  rw [Command.opc, BitVec.extractLsb'_toNat, Command.ofFields, BitVec.toNat_ofNat, Nat.shiftRight_eq_div_pow]
  omega

@[simp] theorem Command.opa_ofFields (opc : Byte) (a b : Word) : (Command.ofFields opc a b).opa = a := by
  apply BitVec.eq_of_toNat_eq
  have ho := opc.isLt; have ha := a.isLt; have hb := b.isLt
  rw [Command.opa, BitVec.extractLsb'_toNat, Command.ofFields, BitVec.toNat_ofNat, Nat.shiftRight_eq_div_pow]
  omega

@[simp] theorem Command.opb_ofFields (opc : Byte) (a b : Word) : (Command.ofFields opc a b).opb = b := by
  apply BitVec.eq_of_toNat_eq
  have ho := opc.isLt; have ha := a.isLt; have hb := b.isLt
  rw [Command.opb, BitVec.extractLsb'_toNat, Command.ofFields, BitVec.toNat_ofNat, Nat.shiftRight_eq_div_pow]
  omega

theorem Command.ofFields_fields (w : Command) : Command.ofFields w.opc w.opa w.opb = w := by
  apply BitVec.eq_of_toNat_eq
  have hw := w.isLt
  rw [Command.ofFields, BitVec.toNat_ofNat, Command.opc, Command.opa, Command.opb, BitVec.extractLsb'_toNat,
    BitVec.extractLsb'_toNat, BitVec.extractLsb'_toNat, Nat.shiftRight_eq_div_pow, Nat.shiftRight_eq_div_pow,
    Nat.shiftRight_eq_div_pow]
  omega

@[simp] theorem decode_ofFields (opc : Byte) (a b : Word) : decode (.ofFields opc a b) = decodeFields opc a b := by
  simp [decode]

@[simp] theorem decodeFields_plainOpc (op : BitVec 4) (a b : Word) :
    decodeFields (plainOpc op) a b = decodeOp false a b op.toNat := by
  have h : opcRsv (plainOpc op) = 0#3 ∧ opcMute (plainOpc op) = false ∧ opcOp (plainOpc op) = op := by
    revert op; decide
  simp [decodeFields, h]

@[simp] theorem decodeFields_gainOpc (op : BitVec 4) (mute : Bool) (a b : Word) :
    decodeFields (gainOpc op mute) a b = decodeOp mute a b op.toNat := by
  have h : opcRsv (gainOpc op mute) = 0#3 ∧ opcMute (gainOpc op mute) = mute ∧ opcOp (gainOpc op mute) = op := by
    revert op mute; decide
  simp [decodeFields, h]

/-- Two words with the same three fields are the same word. -/
theorem Command.ext_fields {v w : Command} (h1 : v.opc = w.opc) (h2 : v.opa = w.opa) (h3 : v.opb = w.opb) : v = w := by
  rw [← Command.ofFields_fields v, ← Command.ofFields_fields w, h1, h2, h3]

/-- Masking a word is masking its three fields. -/
theorem Command.and_eq_iff (w m v : Command) :
    w &&& m = v ↔ (w.opc &&& m.opc = v.opc ∧ w.opa &&& m.opa = v.opa ∧ w.opb &&& m.opb = v.opb) := by
  have h1 : (w &&& m).opc = w.opc &&& m.opc := by simp [Command.opc, BitVec.extractLsb'_and]
  have h2 : (w &&& m).opa = w.opa &&& m.opa := by simp [Command.opa, BitVec.extractLsb'_and]
  have h3 : (w &&& m).opb = w.opb &&& m.opb := by simp [Command.opb, BitVec.extractLsb'_and]
  rw [← h1, ← h2, ← h3]
  exact ⟨fun h => by simp [h], fun h => Command.ext_fields h.1 h.2.1 h.2.2⟩

/-- A table row selects a word when its three masked fields match. -/
theorem OpcodeRow.selects_iff (r : OpcodeRow) (w : Command) :
    r.selects w = true ↔ (w.opc &&& r.mask.opc = r.matchBits.opc ∧ w.opa &&& r.mask.opa = r.matchBits.opa ∧
      w.opb &&& r.mask.opb = r.matchBits.opb) := by
  rw [OpcodeRow.selects, beq_iff_eq, Command.and_eq_iff]

/-- The nine bytes of a word spell the word. -/
theorem Command.bigEndian_toBytes (w : Command) : bigEndian w.toBytes 0 = w.toNat := by
  have hw := w.isLt
  simp only [Command.toBytes, List.range, List.range.loop, List.map, bigEndian, BitVec.extractLsb'_toNat,
    Nat.shiftRight_eq_div_pow]
  omega

@[simp] theorem Command.toBytes_length (w : Command) : w.toBytes.length = 9 := by simp [Command.toBytes]

@[simp] theorem decodeBytes_toBytes (w : Command) : decodeBytes w.toBytes = decode w := by
  simp [decodeBytes, Command.bigEndian_toBytes]

/-- A table word is decoded as the command word it numbers. -/
theorem decodeTableWord_eq (w : Nat) : decodeTableWord 72 w = decode (BitVec.ofNat 72 w) := by
  have : (BitVec.ofNat 72 (w % 2 ^ 72)) = BitVec.ofNat 72 w := by
    apply BitVec.eq_of_toNat_eq; simp
  rw [decodeTableWord, if_pos (Nat.le_refl 72), this, decodeBytes_toBytes]

end Sys2Proof
end

