-- ==== Sys2Proof/Laws/State.lean ====
section
/-! SUPPORT. One lemma per field of State per update, so that no proof unfolds a record update. -/

namespace Sys2Proof.Machine

@[simp] theorem State.makeCall_devAddr (c : BusCall) (s : State) : (s.makeCall c).devAddr = s.devAddr := rfl
@[simp] theorem State.makeCall_transport (c : BusCall) (s : State) : (s.makeCall c).transport = s.transport := rfl
@[simp] theorem State.makeCall_opc (c : BusCall) (s : State) : (s.makeCall c).opc = s.opc := rfl
@[simp] theorem State.makeCall_opa (c : BusCall) (s : State) : (s.makeCall c).opa = s.opa := rfl
@[simp] theorem State.makeCall_opb (c : BusCall) (s : State) : (s.makeCall c).opb = s.opb := rfl
@[simp] theorem State.makeCall_ret (c : BusCall) (s : State) : (s.makeCall c).ret = s.ret := rfl
@[simp] theorem State.makeCall_status (c : BusCall) (s : State) : (s.makeCall c).status = s.status := rfl
@[simp] theorem State.makeCall_cp (c : BusCall) (s : State) : (s.makeCall c).cp = s.cp := rfl
@[simp] theorem State.makeCall_cbuf (c : BusCall) (s : State) : (s.makeCall c).cbuf = s.cbuf := rfl
@[simp] theorem State.makeCall_hist (c : BusCall) (s : State) : (s.makeCall c).hist = s.hist ++ [s.answer c] := rfl
@[simp] theorem State.makeCall_prog (c : BusCall) (s : State) : (s.makeCall c).prog = ⟨s.prog.calls + 1, eventRet (s.answer c), eventLocked (s.answer c)⟩ := rfl
@[simp] theorem State.makeCall_cfg (c : BusCall) (s : State) : (s.makeCall c).cfg = s.cfg := rfl
@[simp] theorem State.makeCall_script (c : BusCall) (s : State) : (s.makeCall c).script = s.script := rfl
@[simp] theorem State.makeCall_seed (c : BusCall) (s : State) : (s.makeCall c).seed = s.seed + 1 := rfl

@[simp] theorem State.complete_devAddr (f : Word → Word) (s : State) : (s.complete f).devAddr = s.devAddr := rfl
@[simp] theorem State.complete_transport (f : Word → Word) (s : State) : (s.complete f).transport = s.transport := rfl
@[simp] theorem State.complete_opc (f : Word → Word) (s : State) : (s.complete f).opc = s.opc := rfl
@[simp] theorem State.complete_opa (f : Word → Word) (s : State) : (s.complete f).opa = s.opa := rfl
@[simp] theorem State.complete_opb (f : Word → Word) (s : State) : (s.complete f).opb = s.opb := rfl
@[simp] theorem State.complete_ret (f : Word → Word) (s : State) : (s.complete f).ret = if s.prog.calls = 0 then s.ret else f s.prog.lastRet := rfl
@[simp] theorem State.complete_status (f : Word → Word) (s : State) : (s.complete f).status = statusWithRun s.status .idle := rfl
@[simp] theorem State.complete_cp (f : Word → Word) (s : State) : (s.complete f).cp = s.cp + 1#32 := rfl
@[simp] theorem State.complete_cbuf (f : Word → Word) (s : State) : (s.complete f).cbuf = s.cbuf := rfl
@[simp] theorem State.complete_hist (f : Word → Word) (s : State) : (s.complete f).hist = s.hist := rfl
@[simp] theorem State.complete_prog (f : Word → Word) (s : State) : (s.complete f).prog = Progress.start := rfl
@[simp] theorem State.complete_cfg (f : Word → Word) (s : State) : (s.complete f).cfg = s.cfg := rfl
@[simp] theorem State.complete_script (f : Word → Word) (s : State) : (s.complete f).script = s.script := rfl
@[simp] theorem State.complete_seed (f : Word → Word) (s : State) : (s.complete f).seed = s.seed := rfl

@[simp] theorem State.raise_devAddr (f : FaultCode) (s : State) : (s.raise f).devAddr = s.devAddr := rfl
@[simp] theorem State.raise_transport (f : FaultCode) (s : State) : (s.raise f).transport = s.transport := rfl
@[simp] theorem State.raise_opc (f : FaultCode) (s : State) : (s.raise f).opc = s.opc := rfl
@[simp] theorem State.raise_opa (f : FaultCode) (s : State) : (s.raise f).opa = s.opa := rfl
@[simp] theorem State.raise_opb (f : FaultCode) (s : State) : (s.raise f).opb = s.opb := rfl
@[simp] theorem State.raise_ret (f : FaultCode) (s : State) : (s.raise f).ret = s.ret := rfl
@[simp] theorem State.raise_status (f : FaultCode) (s : State) : (s.raise f).status = statusWithRun (statusWithFault s.status (faultCode f)) .halted := rfl
@[simp] theorem State.raise_cp (f : FaultCode) (s : State) : (s.raise f).cp = s.cp := rfl
@[simp] theorem State.raise_cbuf (f : FaultCode) (s : State) : (s.raise f).cbuf = s.cbuf := rfl
@[simp] theorem State.raise_hist (f : FaultCode) (s : State) : (s.raise f).hist = s.hist := rfl
@[simp] theorem State.raise_prog (f : FaultCode) (s : State) : (s.raise f).prog = s.prog := rfl
@[simp] theorem State.raise_cfg (f : FaultCode) (s : State) : (s.raise f).cfg = s.cfg := rfl
@[simp] theorem State.raise_script (f : FaultCode) (s : State) : (s.raise f).script = s.script := rfl
@[simp] theorem State.raise_seed (f : FaultCode) (s : State) : (s.raise f).seed = s.seed := rfl

@[simp] theorem State.resetEngine_devAddr (a : DevAddr) (s : State) : (s.resetEngine a).devAddr = a := rfl
@[simp] theorem State.resetEngine_transport (a : DevAddr) (s : State) : (s.resetEngine a).transport = s.transport := rfl
@[simp] theorem State.resetEngine_opc (a : DevAddr) (s : State) : (s.resetEngine a).opc = 0#8 := rfl
@[simp] theorem State.resetEngine_opa (a : DevAddr) (s : State) : (s.resetEngine a).opa = 0#32 := rfl
@[simp] theorem State.resetEngine_opb (a : DevAddr) (s : State) : (s.resetEngine a).opb = 0#32 := rfl
@[simp] theorem State.resetEngine_ret (a : DevAddr) (s : State) : (s.resetEngine a).ret = 0#32 := rfl
@[simp] theorem State.resetEngine_status (a : DevAddr) (s : State) : (s.resetEngine a).status = 0#8 := rfl
@[simp] theorem State.resetEngine_cp (a : DevAddr) (s : State) : (s.resetEngine a).cp = 0#32 := rfl
@[simp] theorem State.resetEngine_cbuf (a : DevAddr) (s : State) : (s.resetEngine a).cbuf = [] := rfl
@[simp] theorem State.resetEngine_hist (a : DevAddr) (s : State) : (s.resetEngine a).hist = [] := rfl
@[simp] theorem State.resetEngine_prog (a : DevAddr) (s : State) : (s.resetEngine a).prog = Progress.start := rfl
@[simp] theorem State.resetEngine_cfg (a : DevAddr) (s : State) : (s.resetEngine a).cfg = s.cfg := rfl
@[simp] theorem State.resetEngine_script (a : DevAddr) (s : State) : (s.resetEngine a).script = s.script := rfl
@[simp] theorem State.resetEngine_seed (a : DevAddr) (s : State) : (s.resetEngine a).seed = Config.seedAfterReset s.seed s.hist := rfl

@[simp] theorem State.issue_devAddr (w : Command) (s : State) : (s.issue w).devAddr = s.devAddr := rfl
@[simp] theorem State.issue_transport (w : Command) (s : State) : (s.issue w).transport = s.transport := rfl
@[simp] theorem State.issue_opc (w : Command) (s : State) : (s.issue w).opc = w.opc := rfl
@[simp] theorem State.issue_opa (w : Command) (s : State) : (s.issue w).opa = w.opa := rfl
@[simp] theorem State.issue_opb (w : Command) (s : State) : (s.issue w).opb = w.opb := rfl
@[simp] theorem State.issue_ret (w : Command) (s : State) : (s.issue w).ret = s.ret := rfl
@[simp] theorem State.issue_status (w : Command) (s : State) : (s.issue w).status = statusWithRun s.status .busy := rfl
@[simp] theorem State.issue_cp (w : Command) (s : State) : (s.issue w).cp = s.cp := rfl
@[simp] theorem State.issue_cbuf (w : Command) (s : State) : (s.issue w).cbuf = s.cbuf := rfl
@[simp] theorem State.issue_hist (w : Command) (s : State) : (s.issue w).hist = s.hist := rfl
@[simp] theorem State.issue_prog (w : Command) (s : State) : (s.issue w).prog = Progress.start := rfl
@[simp] theorem State.issue_cfg (w : Command) (s : State) : (s.issue w).cfg = s.cfg := rfl
@[simp] theorem State.issue_script (w : Command) (s : State) : (s.issue w).script = s.script := rfl
@[simp] theorem State.issue_seed (w : Command) (s : State) : (s.issue w).seed = s.seed := rfl

@[simp] theorem State.hostWrite_devAddr (a : Nat) (b : Byte) (s : State) : (s.hostWrite a b).devAddr = s.devAddr := rfl
@[simp] theorem State.hostWrite_transport (a : Nat) (b : Byte) (s : State) : (s.hostWrite a b).transport = s.transport := rfl
@[simp] theorem State.hostWrite_opc (a : Nat) (b : Byte) (s : State) : (s.hostWrite a b).opc = s.opc := rfl
@[simp] theorem State.hostWrite_opa (a : Nat) (b : Byte) (s : State) : (s.hostWrite a b).opa = s.opa := rfl
@[simp] theorem State.hostWrite_opb (a : Nat) (b : Byte) (s : State) : (s.hostWrite a b).opb = s.opb := rfl
@[simp] theorem State.hostWrite_ret (a : Nat) (b : Byte) (s : State) : (s.hostWrite a b).ret = s.ret := rfl
@[simp] theorem State.hostWrite_status (a : Nat) (b : Byte) (s : State) : (s.hostWrite a b).status = s.status := rfl
@[simp] theorem State.hostWrite_cp (a : Nat) (b : Byte) (s : State) : (s.hostWrite a b).cp = s.cp := rfl
@[simp] theorem State.hostWrite_cbuf (a : Nat) (b : Byte) (s : State) : (s.hostWrite a b).cbuf = s.cbuf.write a b := rfl
@[simp] theorem State.hostWrite_hist (a : Nat) (b : Byte) (s : State) : (s.hostWrite a b).hist = s.hist := rfl
@[simp] theorem State.hostWrite_prog (a : Nat) (b : Byte) (s : State) : (s.hostWrite a b).prog = s.prog := rfl
@[simp] theorem State.hostWrite_cfg (a : Nat) (b : Byte) (s : State) : (s.hostWrite a b).cfg = s.cfg := rfl
@[simp] theorem State.hostWrite_script (a : Nat) (b : Byte) (s : State) : (s.hostWrite a b).script = s.script := rfl
@[simp] theorem State.hostWrite_seed (a : Nat) (b : Byte) (s : State) : (s.hostWrite a b).seed = s.seed := rfl

@[simp] theorem State.popScript_devAddr (s : State) : (s.popScript).devAddr = s.devAddr := rfl
@[simp] theorem State.popScript_transport (s : State) : (s.popScript).transport = s.transport := rfl
@[simp] theorem State.popScript_opc (s : State) : (s.popScript).opc = s.opc := rfl
@[simp] theorem State.popScript_opa (s : State) : (s.popScript).opa = s.opa := rfl
@[simp] theorem State.popScript_opb (s : State) : (s.popScript).opb = s.opb := rfl
@[simp] theorem State.popScript_ret (s : State) : (s.popScript).ret = s.ret := rfl
@[simp] theorem State.popScript_status (s : State) : (s.popScript).status = s.status := rfl
@[simp] theorem State.popScript_cp (s : State) : (s.popScript).cp = s.cp := rfl
@[simp] theorem State.popScript_cbuf (s : State) : (s.popScript).cbuf = s.cbuf := rfl
@[simp] theorem State.popScript_hist (s : State) : (s.popScript).hist = s.hist := rfl
@[simp] theorem State.popScript_prog (s : State) : (s.popScript).prog = s.prog := rfl
@[simp] theorem State.popScript_cfg (s : State) : (s.popScript).cfg = s.cfg := rfl
@[simp] theorem State.popScript_script (s : State) : (s.popScript).script = s.script.tail := rfl
@[simp] theorem State.popScript_seed (s : State) : (s.popScript).seed = s.seed := rfl


@[simp] theorem Progress.start_calls : Progress.start.calls = 0 := rfl
@[simp] theorem Progress.start_lastRet : Progress.start.lastRet = 0#32 := rfl
@[simp] theorem Progress.start_locked : Progress.start.locked = false := rfl

end Sys2Proof.Machine
end

