-- ==== Sys2Proof/Laws/Memory.lean ====
section
/-! SUPPORT. CBUF: a read after a write gives the byte written, a write leaves every other address alone, and every memory
operation keeps the canonical form. -/

namespace Sys2Proof.Machine

@[simp] theorem Memory.find_write_same (m : Memory) (a : Nat) (b : Byte) : (m.write a b).find a = some b := by
  induction m with
  | nil => simp [Memory.write, Memory.find]
  | cons c m ih =>
    simp only [Memory.write]
    split
    · simp [Memory.find]
    · split
      · simp [Memory.find]
      · have : ¬ c.1 = a := by omega
        simp [Memory.find, this, ih]

theorem Memory.find_write_other (m : Memory) (a a' : Nat) (b : Byte) (h : a' ≠ a) :
    (m.write a b).find a' = m.find a' := by
  induction m with
  | nil => simp [Memory.write, Memory.find, h.symm]
  | cons c m ih =>
    simp only [Memory.write]
    split
    · simp [Memory.find, h.symm]
    · split
      · rename_i hc
        have : ¬ c.1 = a' := by omega
        simp [Memory.find, h.symm, this]
      · simp [Memory.find, ih]

/-- A memory is well formed when its first address comes before the second, and so on: the rule for one more entry. -/
theorem Memory.wf_cons (c : Host.Cell) (m : Memory) :
    Memory.wf (c :: m) = true ↔ (∀ d ∈ m.head?, c.1 < d.1) ∧ Memory.wf m = true := by
  cases m <;> simp [Memory.wf]

/-- The first address after a write is the address written or the first one before it. -/
theorem Memory.head_write (m : Memory) (a : Nat) (b : Byte) :
    ∀ d ∈ (m.write a b).head?, d.1 = a ∨ ∃ c ∈ m.head?, d.1 = c.1 := by
  cases m with
  | nil => simp [Memory.write]
  | cons c m =>
    simp only [Memory.write]
    split
    · simp
    · split <;> simp

theorem Memory.wf_write (m : Memory) (a : Nat) (b : Byte) (h : m.wf = true) : (m.write a b).wf = true := by
  induction m with
  | nil => simp [Memory.write, Memory.wf]
  | cons c m ih =>
    have ⟨hc, hm⟩ := (Memory.wf_cons c m).mp h
    simp only [Memory.write]
    split
    · rw [Memory.wf_cons]; exact ⟨by simpa using ‹a < c.1›, h⟩
    · split
      · rename_i he
        rw [Memory.wf_cons]; exact ⟨fun d hd => he ▸ hc d hd, hm⟩
      · rw [Memory.wf_cons]
        refine ⟨fun d hd => ?_, ih hm⟩
        rcases Memory.head_write m a b d hd with he | ⟨c', hc', he⟩
        · omega
        · have := hc c' hc'; omega

theorem Memory.mem_write (m : Memory) (a : Nat) (b : Byte) :
    ∀ c ∈ m.write a b, c = (a, b) ∨ c ∈ m := by
  induction m with
  | nil => simp [Memory.write]
  | cons d m ih =>
    intro c hc
    simp only [Memory.write] at hc
    split at hc
    · simpa using hc
    · split at hc
      · rcases List.mem_cons.mp hc with h | h
        · exact .inl h
        · exact .inr (List.mem_cons_of_mem _ h)
      · rcases List.mem_cons.mp hc with h | h
        · exact .inr (h ▸ List.mem_cons_self ..)
        · rcases ih c h with h | h
          · exact .inl h
          · exact .inr (List.mem_cons_of_mem _ h)

theorem reset_cbuf_wf : State.reset.cbuf.wf = true := rfl

/-- The engine's read of a byte the host wrote. -/
theorem State.readCbuf_of_find (s : State) (i : Nat) (b : Byte) (h : s.cbuf.find i = some b) : s.readCbuf i = b := by
  simp [State.readCbuf, h]

/-- The engine's read of a byte nothing has written is the free value. -/
theorem State.readCbuf_of_none (s : State) (i : Nat) (h : s.cbuf.find i = none) :
    s.readCbuf i = Config.unwrittenByte s.seed i := by
  simp [State.readCbuf, h]

@[simp] theorem State.readCbuf_hostWrite_same (s : State) (a : Nat) (b : Byte) : (s.hostWrite a b).readCbuf a = b := by
  simp [State.readCbuf]

theorem State.readCbuf_hostWrite_other (s : State) (a a' : Nat) (b : Byte) (h : a' ≠ a) :
    (s.hostWrite a b).readCbuf a' = s.readCbuf a' := by
  simp [State.readCbuf, Memory.find_write_other _ _ _ _ h]

@[simp] theorem State.readCbufRange_length (s : State) (offset n : Nat) : (s.readCbufRange offset n).length = n := by
  simp [State.readCbufRange]

end Sys2Proof.Machine
end

