-- ==== Sys2Proof/Laws/Status.lean ====
section
/-! SUPPORT. STATUS: each field reads back what was written to it and no write touches another field (10_state.md R24). -/

namespace Sys2Proof.Machine

@[simp] theorem statusRun_withRun (v : Byte) (r : Run) : statusRun (statusWithRun v r) = r := by
  revert v; cases r <;> decide

@[simp] theorem statusFault_withRun (v : Byte) (r : Run) : statusFault (statusWithRun v r) = statusFault v := by
  revert v; cases r <;> decide

@[simp] theorem statusReserved_withRun (v : Byte) (r : Run) : statusReserved (statusWithRun v r) = statusReserved v := by
  revert v; cases r <;> decide

@[simp] theorem statusRun_withFault (v : Byte) (c : BitVec 4) : statusRun (statusWithFault v c) = statusRun v := by
  revert v c; decide

@[simp] theorem statusFault_withFault (v : Byte) (c : BitVec 4) : statusFault (statusWithFault v c) = c := by
  revert v c; decide

@[simp] theorem statusReserved_withFault (v : Byte) (c : BitVec 4) :
    statusReserved (statusWithFault v c) = statusReserved v := by
  revert v c; decide

theorem faultCode_ne_zero (f : FaultCode) : faultCode f ≠ 0#4 := by cases f <;> decide

theorem faultCode_le_six (f : FaultCode) : (faultCode f).toNat ≤ 6 := by cases f <;> decide

@[simp] theorem State.raise_run (f : FaultCode) (s : State) : (s.raise f).run = .halted := by simp [State.run]

@[simp] theorem State.raise_faultField (f : FaultCode) (s : State) : (s.raise f).faultField = faultCode f := by
  simp [State.faultField]

@[simp] theorem State.complete_run (f : Word → Word) (s : State) : (s.complete f).run = .idle := by simp [State.run]

@[simp] theorem State.complete_faultField (f : Word → Word) (s : State) : (s.complete f).faultField = s.faultField := by
  simp [State.faultField]

@[simp] theorem State.issue_run (w : Command) (s : State) : (s.issue w).run = .busy := by simp [State.run]

@[simp] theorem State.issue_faultField (w : Command) (s : State) : (s.issue w).faultField = s.faultField := by
  simp [State.faultField]

@[simp] theorem State.resetEngine_run (a : DevAddr) (s : State) : (s.resetEngine a).run = .idle := by
  simp [State.run, statusRun, runOfBits]

@[simp] theorem State.resetEngine_faultField (a : DevAddr) (s : State) : (s.resetEngine a).faultField = 0#4 := by
  simp [State.faultField, statusFault]

@[simp] theorem State.makeCall_run (c : BusCall) (s : State) : (s.makeCall c).run = s.run := rfl

@[simp] theorem State.makeCall_faultField (c : BusCall) (s : State) : (s.makeCall c).faultField = s.faultField := rfl

@[simp] theorem State.hostWrite_run (a : Nat) (b : Byte) (s : State) : (s.hostWrite a b).run = s.run := rfl

@[simp] theorem State.hostWrite_faultField (a : Nat) (b : Byte) (s : State) :
    (s.hostWrite a b).faultField = s.faultField := rfl

@[simp] theorem State.popScript_run (s : State) : s.popScript.run = s.run := rfl

@[simp] theorem State.popScript_faultField (s : State) : s.popScript.faultField = s.faultField := rfl

end Sys2Proof.Machine
end

