-- ==== Sys2Proof/Laws/Ops.lean ====
section
/-! SUPPORT. What one step of an operation can do, said once: raise its fault in its first step, make its next call, or complete. -/

namespace Sys2Proof.Machine

theorem runOperation_first_fault {check : Option FaultCode} {f : FaultCode} (call : Nat → Option BusCall)
    (result : Word → Word) {s : State} (h0 : s.prog.calls = 0) (hf : check = some f) :
    runOperation check call result s = .next (s.raise f) := by
  simp [runOperation, h0, hf]

theorem runOperation_first_ok {check : Option FaultCode} {call : Nat → Option BusCall} {c : BusCall}
    (result : Word → Word) {s : State} (hf : check = none) (hc : call s.prog.calls = some c) :
    runOperation check call result s = .next (s.makeCall c) := by
  simp [runOperation, hf, hc]

theorem runOperation_next_call (check : Option FaultCode) {call : Nat → Option BusCall} {c : BusCall}
    (result : Word → Word) {s : State} (h0 : s.prog.calls ≠ 0) (hc : call s.prog.calls = some c) :
    runOperation check call result s = .next (s.makeCall c) := by
  simp [runOperation, h0, hc]

theorem runOperation_complete (check : Option FaultCode) {call : Nat → Option BusCall} (result : Word → Word) {s : State}
    (h0 : s.prog.calls ≠ 0 ∨ check = none) (hc : call s.prog.calls = none) :
    runOperation check call result s = .next (s.complete result) := by
  rcases h0 with h0 | h0 <;> simp [runOperation, h0, hc]

/-- The inversion of an operation's step. -/
theorem runOperation_cases {check : Option FaultCode} {call : Nat → Option BusCall} {result : Word → Word} {s t : State}
    (h : runOperation check call result s = .next t) :
    (∃ f, s.prog.calls = 0 ∧ check = some f ∧ t = s.raise f) ∨
    (∃ c, call s.prog.calls = some c ∧ t = s.makeCall c) ∨
    (call s.prog.calls = none ∧ t = s.complete result) := by
  unfold runOperation at h
  split at h
  · rename_i f hf
    refine .inl ⟨f, ?_⟩
    split at hf
    · exact ⟨‹_›, hf, by simpa using h.symm⟩
    · cases hf
  · split at h
    · exact .inr (.inl ⟨_, ‹_›, by simpa using h.symm⟩)
    · exact .inr (.inr ⟨‹_›, by simpa using h.symm⟩)

/-- An operation always answers a next state. -/
theorem runOperation_next (check : Option FaultCode) (call : Nat → Option BusCall) (result : Word → Word) (s : State) :
    ∃ t, runOperation check call result s = .next t := by
  unfold runOperation
  split
  · exact ⟨_, rfl⟩
  · split <;> exact ⟨_, rfl⟩

/-- Every meaning is an operation: a fault condition, its calls and what RET gets. -/
theorem exec_eq_runOperation (i : Instr) (s : State) :
    ∃ check call result, exec i s = runOperation check call result s := by
  cases i <;> exact ⟨_, _, _, rfl⟩

/-- The inversion of an engine step of any instruction. -/
theorem exec_cases {i : Instr} {s t : State} (h : exec i s = .next t) :
    (∃ f, s.prog.calls = 0 ∧ t = s.raise f) ∨ (∃ c, t = s.makeCall c) ∨ (∃ f, t = s.complete f) := by
  obtain ⟨check, call, result, he⟩ := exec_eq_runOperation i s
  rcases runOperation_cases (he ▸ h) with ⟨f, h0, -, rfl⟩ | ⟨c, -, rfl⟩ | ⟨-, rfl⟩
  · exact .inl ⟨f, h0, rfl⟩
  · exact .inr (.inl ⟨c, rfl⟩)
  · exact .inr (.inr ⟨result, rfl⟩)

/-- Every engine step of every instruction answers a next state: a fault is one too. -/
theorem exec_next (i : Instr) (s : State) : ∃ t, exec i s = .next t := by
  obtain ⟨check, call, result, he⟩ := exec_eq_runOperation i s
  rw [he]; exact runOperation_next ..

/-- What the event of a call records: that call. -/
@[simp] theorem eventCall_answer (s : State) (c : BusCall) : eventCall (s.answer c) = c := by cases c <;> rfl

/-- A write shows no lock bit. -/
@[simp] theorem eventLocked_write (s : State) (dev : DevAddr) (bytes : List Byte) (ns : Bool) :
    eventLocked (s.answer (.write dev bytes ns)) = false := rfl

/-- The lock test is true exactly when the buffer has a sixth byte whose bit 1 is set. -/
theorem lockSeen_iff (buf : List Byte) : lockSeen buf = true ↔ buf[5]?.map (fun b => b.getLsbD 1) = some true := by
  unfold lockSeen; simp only [Config.lockByte, Config.lockBit]; cases buf[5]? <;> simp

/-- A six-byte buffer has a sixth byte, and the lock test is its bit 1. -/
theorem lockSeen_of_length {buf : List Byte} (h : buf.length = 6) :
    buf[5]?.map (fun b => b.getLsbD 1) = some (lockSeen buf) := by
  unfold lockSeen; simp only [Config.lockByte, Config.lockBit]
  rw [List.getElem?_eq_getElem (by omega)]; rfl

/-- The event of WAITLOCK's read: a return value and six bytes. -/
theorem answer_memReadData (s s' : State) : ∃ r buf, s.answer (s'.memReadData 6) = .read s'.devAddr 6 false r buf ∧ buf.length = 6 :=
  ⟨_, _, rfl, by simp⟩

end Sys2Proof.Machine
end

