-- ==== Sys2Proof/Laws/Engine.lean ====
section
/-! SUPPORT. What one step of the machine can do, said once (70_reset_and_hazards.md R248, R255), and the placing of a command. -/

namespace Sys2Proof.Machine

/-- A step in which the engine runs: from `s`, or from `s` with a `wait` of the host used up. -/
def EngineRuns (s t : State) : Prop :=
  s.run = .busy ∧ ∃ s0, (s0 = s ∨ s0 = s.popScript) ∧
    ((∃ i, decodeFields s.opc s.opa s.opb = some i ∧ exec i s0 = .next t) ∨
     (decodeFields s.opc s.opa s.opb = none ∧ t = s0.raise .illegalCommand))

/-- The engine's turn, when it answers a next state. -/
theorem engineStep_cases {s t : State} (h : engineStep s = .next t) :
    (s.run = .idle ∧ t = s) ∨
    (s.run = .busy ∧ ((∃ i, decodeFields s.opc s.opa s.opb = some i ∧ exec i s = .next t) ∨
      (decodeFields s.opc s.opa s.opb = none ∧ t = s.raise .illegalCommand))) := by
  unfold engineStep at h
  split at h
  · exact .inl ⟨‹_›, by simpa using h.symm⟩
  · refine .inr ⟨‹_›, ?_⟩
    split at h
    · exact .inl ⟨_, ‹_›, h⟩
    · exact .inr ⟨‹_›, by simpa using h.symm⟩
  · cases h
  · cases h

/-- The inversion of the machine's step. -/
theorem step_cases {s t : State} (h : step s = .next t) :
    (∃ strap rest, s.script = .reset strap :: rest ∧ t = s.popScript.resetEngine strap) ∨
    (∃ w rest, s.script = .issue w :: rest ∧ s.run = .idle ∧ t = s.popScript.issue w) ∨
    (∃ a b rest, s.script = .writeCbuf a b :: rest ∧ (s.run = .idle ∨ s.run = .halted) ∧ a < s.cfg.cbufSize ∧
      t = s.popScript.hostWrite a b) ∨
    ((s.run = .idle ∨ s.run = .halted) ∧ (t = s ∧ s.script = [] ∨ ∃ rest, s.script = .wait :: rest ∧ t = s.popScript)) ∨
    (∃ w rest, s.script = .issue w :: rest ∧ s.run = .halted ∧ t = s.popScript) ∨
    EngineRuns s t := by
  unfold step machineStep at h
  split at h
  · rename_i hs
    rcases engineStep_cases h with ⟨hr, rfl⟩ | ⟨hr, hx⟩
    · exact .inr (.inr (.inr (.inl ⟨.inl hr, .inl ⟨rfl, hs⟩⟩)))
    · exact .inr (.inr (.inr (.inr (.inr ⟨hr, s, .inl rfl, hx⟩))))
  · rename_i w rest hs
    unfold hostIssue at h
    split at h
    · exact .inr (.inl ⟨w, rest, hs, ‹_›, by simpa using h.symm⟩)
    · rcases engineStep_cases h with ⟨hr, rfl⟩ | ⟨hr, hx⟩
      · simp_all
      · exact .inr (.inr (.inr (.inr (.inr ⟨hr, s, .inl rfl, hx⟩))))
    · exact .inr (.inr (.inr (.inr (.inl ⟨w, rest, hs, ‹_›, by simpa using h.symm⟩))))
    · rcases engineStep_cases h with ⟨hr, rfl⟩ | ⟨hr, hx⟩
      · simp_all
      · exact .inr (.inr (.inr (.inr (.inr ⟨hr, s, .inl rfl, hx⟩))))
  · rename_i a b rest hs
    unfold hostWriteCbuf at h
    split at h
    · rcases engineStep_cases h with ⟨hr, rfl⟩ | ⟨hr, hx⟩
      · simp_all
      · exact .inr (.inr (.inr (.inr (.inr ⟨hr, s, .inl rfl, hx⟩))))
    · rcases engineStep_cases h with ⟨hr, rfl⟩ | ⟨hr, hx⟩
      · simp_all
      · exact .inr (.inr (.inr (.inr (.inr ⟨hr, s, .inl rfl, hx⟩))))
    · split at h
      · exact .inr (.inr (.inl ⟨a, b, rest, hs, .inl ‹_›, ‹_›, by simpa using h.symm⟩))
      · cases h
    · split at h
      · exact .inr (.inr (.inl ⟨a, b, rest, hs, .inr ‹_›, ‹_›, by simpa using h.symm⟩))
      · cases h
  · rename_i strap rest hs
    exact .inl ⟨strap, rest, hs, by simpa using h.symm⟩
  · rename_i rest hs
    unfold hostWait at h
    split at h
    · exact .inr (.inr (.inr (.inl ⟨.inr ‹_›, .inr ⟨rest, hs, by simpa using h.symm⟩⟩)))
    all_goals
      rcases engineStep_cases h with ⟨hr, rfl⟩ | ⟨hr, hx⟩
      · exact .inr (.inr (.inr (.inl ⟨.inl hr, .inr ⟨rest, hs, rfl⟩⟩)))
      · exact .inr (.inr (.inr (.inr (.inr ⟨hr, s.popScript, .inr rfl, hx⟩))))

/-- When the host leaves the turn to a BUSY engine whose latches hold a legal command, the step is that command's. -/
theorem step_busy {s : State} {i : Instr} (hs : s.script = []) (hr : s.run = .busy)
    (hd : decodeFields s.opc s.opa s.opb = some i) : step s = exec i s := by
  simp [step, machineStep, hs, engineStep, hr, hd]

/-- The same when the host waits. -/
theorem step_wait_busy {s : State} {i : Instr} {rest : List HostMove} (hs : s.script = .wait :: rest) (hr : s.run = .busy)
    (hd : decodeFields s.opc s.opa s.opb = some i) : step s = exec i s.popScript := by
  simp [step, machineStep, hs, hostWait, hr, engineStep, hd]

@[simp] theorem State.withFetchWord_of_empty (s : State) (w : Nat) (h : s.script = []) :
    s.withFetchWord 72 w = s.issue (BitVec.ofNat 72 w) := by
  have : (BitVec.ofNat 72 (w % 2 ^ 72)) = BitVec.ofNat 72 w := by
    apply BitVec.eq_of_toNat_eq; simp
  unfold State.withFetchWord State.present State.engineTurn
  rw [this]
  split
  · rfl
  · simp_all

end Sys2Proof.Machine
end

