-- ==== Sys2Proof/Laws/Pll.lean ====
section
/-! SUPPORT. The search: the nearest numerator for one denominator, and the scan over the denominators (41_pll.md R128). -/

namespace Sys2Proof.Machine

theorem clamp_bounds {v a b : Int} (h : a ≤ b) : a ≤ clamp v a b ∧ clamp v a b ≤ b := by
  unfold clamp; split
  · exact ⟨le_refl _, h⟩
  · split <;> omega

theorem clamp_of_mem {v a b : Int} (h : a ≤ v ∧ v ≤ b) : clamp v a b = v := by
  unfold clamp; rw [if_neg (by omega), if_neg (by omega)]

/-- The nearest numerator is below its denominator. -/
theorem nearestNum_lt (rem : Int) (den : Nat) {m : Nat} (hm : 1 ≤ m) : nearestNum rem den m < m := by
  have h := clamp_bounds (v := -(((den : Int) - 2 * (rem * m)) / (2 * (den : Int)))) (a := 0) (b := (m : Int) - 1) (by omega)
  unfold nearestNum; omega

/-- An integer `c` within half a unit of `p / d`, clamped to 0..b, is at least as near to `p / d` as any integer of 0..b, and
the smallest of those equally near. -/
theorem clamp_nearest {p d c n b : Int} (hd : 0 < d) (lo : 2 * (c * d) < 2 * p + d) (hi : 2 * p ≤ 2 * (c * d) + d)
    (h0 : 0 ≤ n) (hb : n ≤ b) :
    |p - clamp c 0 b * d| < |p - n * d| ∨ |p - clamp c 0 b * d| = |p - n * d| ∧ clamp c 0 b ≤ n := by
  have key : ∀ u v : Int, u < v → u * d + d ≤ v * d := fun u v h => by nlinarith
  have hz : (0 : Int) * d = 0 := zero_mul d
  have pos : 0 ≤ n * d := Int.mul_nonneg h0 (le_of_lt hd)
  have low : c < 0 → c * d + d ≤ 0 := fun h => by have := key c 0 h; omega
  have bnd : n * d ≤ b * d := Int.mul_le_mul_of_nonneg_right hb (le_of_lt hd)
  have zn : 0 < n → d ≤ n * d := fun h => by have := key 0 n h; omega
  have nb : n < b → n * d + d ≤ b * d := key n b
  have bc : b < c → b * d + d ≤ c * d := key b c
  have nc : n < c → n * d + d ≤ c * d := key n c
  have cn : c < n → c * d + d ≤ n * d := key c n
  have eqc : n = c → n * d = c * d := fun h => by rw [h]
  have eqb : n = b → n * d = b * d := fun h => by rw [h]
  rw [abs_eq_max_neg, abs_eq_max_neg]
  unfold clamp
  split
  · rw [hz]; generalize n * d = y at *; generalize c * d = x at *; omega
  · split
    · generalize n * d = y at *; generalize c * d = x at *; generalize b * d = z at *; omega
    · generalize n * d = y at *; generalize c * d = x at *; omega

/-- No numerator below the denominator comes nearer than the nearest numerator, and of those equally near it is the least. -/
theorem nearestNum_best (rem : Int) {den m n : Nat} (hd : 0 < den) (hn : n < m) :
    fracError rem den (nearestNum rem den m) m < fracError rem den n m ∨
    fracError rem den (nearestNum rem den m) m = fracError rem den n m ∧ nearestNum rem den m ≤ n := by
  have e1 := Int.mul_ediv_add_emod ((den : Int) - 2 * (rem * m)) (2 * den)
  have e2 := Int.emod_nonneg ((den : Int) - 2 * (rem * m)) (show (2 * den : Int) ≠ 0 by omega)
  have e3 := Int.emod_lt_of_pos ((den : Int) - 2 * (rem * m)) (show (0 : Int) < 2 * den by omega)
  have hb := clamp_bounds (v := -(((den : Int) - 2 * (rem * m)) / (2 * den))) (a := 0) (b := (m : Int) - 1) (by omega)
  have hnum : ((nearestNum rem den m : Nat) : Int) = clamp (-(((den : Int) - 2 * (rem * m)) / (2 * den))) 0 ((m : Int) - 1) := by
    unfold nearestNum; omega
  have hc := clamp_nearest (p := rem * m) (d := den) (c := -(((den : Int) - 2 * (rem * m)) / (2 * den))) (n := n)
    (b := (m : Int) - 1) (by omega) (by nlinarith) (by nlinarith) (by omega) (by omega)
  unfold fracError
  rw [← hnum, Int.abs_eq_natAbs, Int.abs_eq_natAbs] at hc
  omega

/-- The scan answers a candidate. -/
theorem bestFracScan_mem (rem : Int) (den k : Nat) :
    1 ≤ (bestFracScan rem den k).2 ∧ (bestFracScan rem den k).2 ≤ max k 1 ∧
    (bestFracScan rem den k).1 < (bestFracScan rem den k).2 := by
  induction k with
  | zero => simp [bestFracScan]
  | succ k ih =>
    simp only [bestFracScan]
    split
    · exact ⟨by simp, by simp, nearestNum_lt rem den (by omega)⟩
    · omega

/-- The scan answers the best candidate: no fraction with a denominator up to `k` has a smaller error (errors compared by cross
multiplication), and among equal errors none comes earlier in (denominator, numerator). -/
theorem bestFracScan_best (rem : Int) {den : Nat} (hd : 0 < den) (k : Nat) :
    ∀ m n, 1 ≤ m → m ≤ k → n < m →
      fracError rem den (bestFracScan rem den k).1 (bestFracScan rem den k).2 * m <
        fracError rem den n m * (bestFracScan rem den k).2 ∨
      (fracError rem den (bestFracScan rem den k).1 (bestFracScan rem den k).2 * m =
        fracError rem den n m * (bestFracScan rem den k).2 ∧
        ((bestFracScan rem den k).2 < m ∨ (bestFracScan rem den k).2 = m ∧ (bestFracScan rem den k).1 ≤ n)) := by
  induction k with
  | zero => intro m n h1 h2; omega
  | succ k ih =>
    intro m n h1 h2 hn
    have hmem := bestFracScan_mem rem den k
    have base : k = 0 → bestFracScan rem den k = (0, 1) := by rintro rfl; rfl
    simp only [bestFracScan]
    generalize hbest : bestFracScan rem den k = best at *
    split
    · rename_i hlt
      rcases Nat.lt_or_ge k m with hk | hk
      · obtain rfl : m = k + 1 := by omega
        rcases nearestNum_best rem hd hn with h | ⟨h, hle⟩
        · left; exact Nat.mul_lt_mul_of_pos_right h (by omega)
        · right; exact ⟨by rw [h], .inr ⟨rfl, hle⟩⟩
      · left
        rcases ih m n h1 hk hn with h | ⟨h, -⟩
        · nlinarith
        · nlinarith
    · rename_i hge
      rcases Nat.lt_or_ge k m with hk | hk
      · obtain rfl : m = k + 1 := by omega
        have hnear : fracError rem den (nearestNum rem den (k + 1)) (k + 1) ≤ fracError rem den n (k + 1) := by
          rcases nearestNum_best rem hd hn with h | ⟨h, -⟩ <;> omega
        have hle : fracError rem den best.1 best.2 * (k + 1) ≤ fracError rem den n (k + 1) * best.2 :=
          le_trans (by omega) (Nat.mul_le_mul_right best.2 hnear)
        rcases Nat.lt_or_ge (fracError rem den best.1 best.2 * (k + 1)) (fracError rem den n (k + 1) * best.2) with h | h
        · exact .inl h
        · refine .inr ⟨by omega, ?_⟩
          rcases Nat.eq_zero_or_pos k with h0 | h0
          · have := base h0; subst h0; subst this; exact .inr ⟨rfl, by omega⟩
          · left; omega
      · exact ih m n h1 hk hn

/-- `BestFrac` answers a candidate. -/
theorem bestFrac_mem (rem : Int) {den : Nat} (hd : 0 < den) :
    1 ≤ (bestFrac rem den).2 ∧ (bestFrac rem den).2 ≤ Config.mMax ∧ (bestFrac rem den).1 < (bestFrac rem den).2 := by
  unfold bestFrac
  split
  · rename_i h
    have hg : 0 < Nat.gcd rem.toNat den := Nat.gcd_pos_of_pos_right _ hd
    exact ⟨(Nat.div_pos (Nat.gcd_le_right _ hd) hg), h.2.2,
      Nat.div_lt_div_of_lt_of_dvd (Nat.gcd_dvd_right _ _) (by omega)⟩
  · have h := bestFracScan_mem rem den Config.mMax
    exact ⟨h.1, by simpa [Config.mMax] using h.2.1, h.2.2⟩

/-- The input divider is one of 1, 2, 3, 4. -/
theorem pllX_mem (finMax mclock : Nat) : 1 ≤ pllX finMax mclock ∧ pllX finMax mclock ≤ 4 := by
  unfold pllX; split_ifs <;> omega

/-- The multiplier is one of 1 to 8. -/
theorem pllR_mem (target x mclock : Nat) : 1 ≤ pllR target x mclock ∧ pllR target x mclock ≤ 8 := by
  have := clamp_bounds (v := ((target * x / mclock : Nat) : Int)) (a := 1) (b := 8) (by omega)
  unfold pllR; omega

end Sys2Proof.Machine
end

