-- ==== Sys2Proof/Laws/Gain.lean ====
section
/-! SUPPORT. Gains: the exact value of a pattern, the comparators, and rounding to binary32 (42_gain.md R165, R166). -/

namespace Sys2Proof.Machine

/-- The scaled integer is the pattern's exact value in units of 2^-149. -/
theorem f32Scaled_eq_real (p : Word) : (f32Scaled p : ℚ) = f32Real p * 2 ^ 149 := by
  unfold f32Scaled f32Real f32Magnitude
  by_cases he : f32Exponent p = 0
  · rw [if_pos he, if_pos he]
    split <;> push_cast <;> field_simp
  · rw [if_neg he, if_neg he]
    have h2 : (2 : ℚ) ^ ((f32Exponent p : ℤ) - 127) = 2 ^ (f32Exponent p - 1) * 2 ^ 23 / 2 ^ 149 := by
      obtain ⟨k, hk⟩ : ∃ k, f32Exponent p = k + 1 := ⟨f32Exponent p - 1, by omega⟩
      rw [hk, eq_div_iff (by positivity)]
      simp only [Nat.add_sub_cancel, ← zpow_natCast]
      rw [← zpow_add₀ (by norm_num), ← zpow_add₀ (by norm_num)]
      congr 1; push_cast; ring
    rw [h2]
    split <;> push_cast <;> field_simp <;> ring

/-- The comparator on a finite operand compares exact values. -/
theorem f32AtLeast_iff {p : Word} (h : f32Finite p) (t : Int) : f32AtLeast p t = true ↔ (t : ℚ) ≤ f32Real p := by
  unfold f32AtLeast
  rw [if_neg h, decide_eq_true_iff]
  have hs := f32Scaled_eq_real p
  have h1 : (t * f32One ≤ f32Scaled p) ↔ ((t : ℚ) * 2 ^ 149 ≤ (f32Scaled p : ℚ)) := by
    rw [← Int.cast_le (R := ℚ)]; unfold f32One; push_cast; rfl
  rw [h1, hs]
  exact ⟨fun h => le_of_mul_le_mul_right h (by positivity), fun h => mul_le_mul_of_nonneg_right h (by positivity)⟩

/-- Rounding does not go below a whole number that the quotient reaches. -/
theorem le_roundHalfEven {a d v : Nat} (h : v ≤ a / d) : v ≤ roundHalfEven a d := by
  unfold roundHalfEven; split <;> omega

/-- Rounding does not go above a whole number that bounds the quotient. -/
theorem roundHalfEven_le {a d v : Nat} (hd : 0 < d) (h : a ≤ v * d) : roundHalfEven a d ≤ v := by
  have e := Nat.div_add_mod a d
  have hle : a / d ≤ v := Nat.div_le_of_le_mul (by rwa [Nat.mul_comm])
  unfold roundHalfEven
  split
  · rename_i hc
    rcases Nat.lt_or_ge (a / d) v with h1 | h1
    · omega
    · have : a / d = v := by omega
      have h0 : a % d = 0 := by rw [this, Nat.mul_comm] at e; omega
      simp [h0] at hc; omega
  · exact hle

/-- The rounded magnitude of `a / den` units, to 24 significant bits. -/
def roundedMagnitude (a den : Nat) : Nat :=
  roundHalfEven a (den * 2 ^ f32Shift (a / den)) * 2 ^ f32Shift (a / den)

theorem rne32_of_nonneg {num : Int} (den : Nat) (h : 0 ≤ num) : rne32 num den = (roundedMagnitude num.natAbs den : Int) := by
  simp [rne32, roundedMagnitude, Int.not_lt.mpr h]

theorem rne32_of_neg {num : Int} (den : Nat) (h : num < 0) : rne32 num den = -(roundedMagnitude num.natAbs den : Int) := by
  simp [rne32, roundedMagnitude, h]

/-- Rounding a magnitude keeps it on its side of every binary32 value `m * 2^e`: from below. -/
theorem le_roundedMagnitude {a den m e : Nat} (hd : 0 < den) (hm : m < 2 ^ 24) (h : m * 2 ^ e * den ≤ a) :
    m * 2 ^ e ≤ roundedMagnitude a den := by
  have hq : m * 2 ^ e ≤ a / den := (Nat.le_div_iff_mul_le hd).mpr h
  unfold roundedMagnitude
  generalize hs : f32Shift (a / den) = sh
  have hdiv : a / (den * 2 ^ sh) = a / den / 2 ^ sh := (Nat.div_div_eq_div_mul _ _ _).symm
  rcases Nat.lt_or_ge e sh with he | he
  · have hlog : 2 ^ (sh + 23) ≤ a / den := by
      have hne : a / den ≠ 0 := by intro h0; simp [f32Shift, h0] at hs; omega
      refine le_trans (Nat.pow_le_pow_right (by omega) ?_) (Nat.pow_log_le_self 2 hne)
      rw [← Nat.log2_eq_log_two]; unfold f32Shift at hs; omega
    have h23 : 2 ^ 23 ≤ a / den / 2 ^ sh := by
      rw [Nat.le_div_iff_mul_le (by positivity), ← pow_add]; rwa [Nat.add_comm]
    calc m * 2 ^ e ≤ 2 ^ 24 * 2 ^ e := Nat.mul_le_mul_right _ (le_of_lt hm)
      _ = 2 ^ (24 + e) := by rw [pow_add]
      _ ≤ 2 ^ (23 + sh) := Nat.pow_le_pow_right (by omega) (by omega)
      _ = 2 ^ 23 * 2 ^ sh := pow_add _ _ _
      _ ≤ _ := Nat.mul_le_mul_right _ (le_roundHalfEven (hdiv ▸ h23))
  · obtain ⟨k, rfl⟩ := Nat.exists_eq_add_of_le he
    have hv : m * 2 ^ (sh + k) = m * 2 ^ k * 2 ^ sh := by rw [pow_add]; ring
    rw [hv]
    refine Nat.mul_le_mul_right _ (le_roundHalfEven ?_)
    rw [hdiv, Nat.le_div_iff_mul_le (by positivity), ← hv]; exact hq

/-- Rounding a magnitude keeps it on its side of every binary32 value `m * 2^e`: from above. -/
theorem roundedMagnitude_le {a den m e : Nat} (hd : 0 < den) (hm : m < 2 ^ 24) (h : a ≤ m * 2 ^ e * den) :
    roundedMagnitude a den ≤ m * 2 ^ e := by
  have hq : a / den ≤ m * 2 ^ e := Nat.div_le_of_le_mul (by rwa [Nat.mul_comm])
  unfold roundedMagnitude
  generalize hs : f32Shift (a / den) = sh
  rcases Nat.lt_or_ge e sh with he | he
  · exfalso
    have hne : a / den ≠ 0 := by intro h0; simp [f32Shift, h0] at hs; omega
    have hlog : 2 ^ (sh + 23) ≤ a / den := by
      refine le_trans (Nat.pow_le_pow_right (by omega) ?_) (Nat.pow_log_le_self 2 hne)
      rw [← Nat.log2_eq_log_two]; unfold f32Shift at hs; omega
    have : m * 2 ^ e < 2 ^ (sh + 23) := by
      calc m * 2 ^ e < 2 ^ 24 * 2 ^ e := Nat.mul_lt_mul_of_pos_right hm (by positivity)
        _ = 2 ^ (24 + e) := by rw [pow_add]
        _ ≤ 2 ^ (sh + 23) := Nat.pow_le_pow_right (by omega) (by omega)
    omega
  · obtain ⟨k, rfl⟩ := Nat.exists_eq_add_of_le he
    have hv : m * 2 ^ (sh + k) = m * 2 ^ k * 2 ^ sh := by rw [pow_add]; ring
    rw [hv]
    refine Nat.mul_le_mul_right _ (roundHalfEven_le (by positivity) ?_)
    calc a ≤ m * 2 ^ (sh + k) * den := h
      _ = m * 2 ^ k * (den * 2 ^ sh) := by rw [hv]; ring

/-- Rounding keeps a quotient at or above a small whole number of dB. -/
theorem le_rne32 {num : Int} {den : Nat} {t : Int} (hd : 0 < den) (ht : t.natAbs < 2 ^ 24) (h : t * f32One * den ≤ num) :
    t * f32One ≤ rne32 num den := by
  have h1 : (f32One : Int) = ((2 ^ 149 : Nat) : Int) := by simp [f32One]
  rw [h1] at h ⊢
  rcases Int.lt_or_le num 0 with hn | hn
  · rw [rne32_of_neg _ hn]
    have htn : t ≤ 0 := by
      by_contra hc
      have : 0 ≤ t * ((2 ^ 149 : Nat) : Int) * (den : Int) :=
        Int.mul_nonneg (Int.mul_nonneg (by omega) (by positivity)) (by positivity)
      omega
    have := roundedMagnitude_le (a := num.natAbs) (e := 149) hd ht (by
      zify; rw [abs_of_neg hn, abs_of_nonpos htn]; push_cast at h ⊢; linarith)
    zify at this; rw [abs_of_nonpos htn] at this; push_cast at this ⊢; linarith
  · rw [rne32_of_nonneg _ hn]
    rcases Int.lt_or_le t 0 with htn | htn
    · have : t * ((2 ^ 149 : Nat) : Int) ≤ 0 := Int.mul_nonpos_of_nonpos_of_nonneg (le_of_lt htn) (by positivity)
      omega
    · have := le_roundedMagnitude (a := num.natAbs) (e := 149) hd ht (by
        zify; rw [abs_of_nonneg hn, abs_of_nonneg htn]; push_cast at h ⊢; linarith)
      zify at this; rw [abs_of_nonneg htn] at this; push_cast at this ⊢; linarith

/-- Rounding keeps a quotient at or below a small whole number of dB. -/
theorem rne32_le {num : Int} {den : Nat} {t : Int} (hd : 0 < den) (ht : t.natAbs < 2 ^ 24) (h : num ≤ t * f32One * den) :
    rne32 num den ≤ t * f32One := by
  have h1 : (f32One : Int) = ((2 ^ 149 : Nat) : Int) := by simp [f32One]
  rw [h1] at h ⊢
  rcases Int.lt_or_le num 0 with hn | hn
  · rw [rne32_of_neg _ hn]
    rcases Int.lt_or_le t 0 with htn | htn
    · have := le_roundedMagnitude (a := num.natAbs) (e := 149) hd ht (by
        zify; rw [abs_of_neg hn, abs_of_neg htn]; push_cast at h ⊢; linarith)
      zify at this; rw [abs_of_neg htn] at this; push_cast at this ⊢; linarith
    · have : 0 ≤ t * ((2 ^ 149 : Nat) : Int) := Int.mul_nonneg htn (by positivity)
      omega
  · rw [rne32_of_nonneg _ hn]
    have htn : 0 ≤ t := by
      by_contra hc
      have h2 : t * ((2 ^ 149 : Nat) : Int) * (den : Int) < 0 := by
        have : 0 < ((2 ^ 149 : Nat) : Int) * (den : Int) := by positivity
        nlinarith
      omega
    have := roundedMagnitude_le (a := num.natAbs) (e := 149) hd ht (by
      zify; rw [abs_of_nonneg hn, abs_of_nonneg htn]; push_cast at h ⊢; linarith)
    zify at this; rw [abs_of_nonneg htn] at this; push_cast at this ⊢; linarith

end Sys2Proof.Machine
end

