-- ==== Sys2Proof/Laws/PerInstr.lean ====
section
/-! SUPPORT. Facts stated for every instruction, one lemma per constructor: the encoder's word decodes to the instruction
(30_encoding.md R72, R73). -/

namespace Sys2Proof.Laws.RoundTrip

/-- A well-formed instruction is what its own word decodes to. -/
def Statement (i : Instr) : Prop := i.wf = true → decode (encode i) = some i

theorem send (offset length : Word) : Statement (.send offset length) := fun _ => by
  rw [encode, decode_ofFields, decodeFields_plainOpc]; rfl

theorem sendTbl (base rowCount : Word) : Statement (.sendTbl base rowCount) := fun _ => by
  rw [encode, decode_ofFields, decodeFields_plainOpc]; rfl

theorem probe (addr : Word) : Statement (.probe addr) := fun h => by
  have h' : ¬ 128 ≤ addr.toNat := by have := of_decide_eq_true h; omega
  rw [encode, decode_ofFields, decodeFields_plainOpc]
  exact if_neg (by simpa using h')

theorem cfgPll (fs mclock : Word) : Statement (.cfgPll fs mclock) := fun _ => by
  rw [encode, decode_ofFields, decodeFields_plainOpc]; rfl

theorem waitLock : Statement .waitLock := fun _ => by
  rw [encode, decode_ofFields, decodeFields_plainOpc]; rfl

theorem setLig (left right : Word) (mute : Bool) : Statement (.setLig left right mute) := fun _ => by
  rw [encode, decode_ofFields, decodeFields_gainOpc]; rfl

theorem setAxg (left right : Word) (mute : Bool) : Statement (.setAxg left right mute) := fun _ => by
  rw [encode, decode_ofFields, decodeFields_gainOpc]; rfl

theorem setLog (left right : Word) (mute : Bool) : Statement (.setLog left right mute) := fun _ => by
  rw [encode, decode_ofFields, decodeFields_gainOpc]; rfl

theorem setHpg (left right : Word) (mute : Bool) : Statement (.setHpg left right mute) := fun _ => by
  rw [encode, decode_ofFields, decodeFields_gainOpc]; rfl

theorem initCore : Statement .initCore := fun _ => by
  rw [encode, decode_ofFields, decodeFields_plainOpc]; rfl

theorem disPll : Statement .disPll := fun _ => by
  rw [encode, decode_ofFields, decodeFields_plainOpc]; rfl

theorem cfgSrc (fs : Word) : Statement (.cfgSrc fs) := fun _ => by
  rw [encode, decode_ofFields, decodeFields_plainOpc]; rfl

end Sys2Proof.Laws.RoundTrip
end

