-- ==== Sys2Proof/Laws/Run.lean ====
section
/-! SUPPORT. Each meaning as the one shape of an operation, and the whole run of an operation of one, two or n calls
(70_reset_and_hazards.md R255). -/

namespace Sys2Proof.Machine

theorem exec_send (o l : Word) (s : State) :
    exec (.send o l) s = runOperation (rangeCheck s o.toNat l.toNat) (sendCall o l s) id s := rfl

theorem exec_sendTbl (b n : Word) (s : State) :
    exec (.sendTbl b n) s =
      runOperation (rangeCheck s b.toNat (n.toNat * s.cfg.tableRowBytes)) (sendTblCall b n s) id s := rfl

theorem exec_probe (a : Word) (s : State) : exec (.probe a) s = runOperation none (probeCall a) probeResult s := rfl

theorem exec_cfgPll (fs mclock : Word) (s : State) :
    exec (.cfgPll fs mclock) s = runOperation (pllCheck fs.toNat mclock.toNat) (cfgPllCall fs mclock s) id s := rfl

theorem exec_waitLock (s : State) : exec .waitLock s = runOperation none (waitLockCall s) id s := rfl

theorem exec_setLig (l r : Word) (m : Bool) (s : State) :
    exec (.setLig l r m) s = runOperation (inputCheck l r m) (gainCall s.cfg.lineInL s.cfg.lineInR
      (lineInByte (inputCode s m l)) (lineInByte (inputCode s m r)) s) id s := rfl

theorem exec_setAxg (l r : Word) (m : Bool) (s : State) :
    exec (.setAxg l r m) s = runOperation (inputCheck l r m) (gainCall s.cfg.auxInL s.cfg.auxInR
      (auxInByte (inputCode s m l)) (auxInByte (inputCode s m r)) s) id s := rfl

theorem exec_setLog (l r : Word) (m : Bool) (s : State) :
    exec (.setLog l r m) s = runOperation (nanCheck l r) (gainCall s.cfg.lineOutL s.cfg.lineOutR
      (lineOutByte (outputCode s l) m) (lineOutByte (outputCode s r) m) s) id s := rfl

theorem exec_setHpg (l r : Word) (m : Bool) (s : State) :
    exec (.setHpg l r m) s = runOperation (nanCheck l r) (gainCall s.cfg.hpOutL s.cfg.hpOutR
      (hpOutByte (outputCode s l) m) (hpOutByte (outputCode s r) m) s) id s := rfl

theorem exec_initCore (s : State) :
    exec .initCore s = runOperation none (onlyCall (s.memWrite s.cfg.clkctlAddr [s.cfg.clkctlDisable])) id s := rfl

theorem exec_disPll (s : State) :
    exec .disPll s = runOperation none (onlyCall (s.memWrite s.cfg.pllAddr s.cfg.pllDisable)) id s := rfl

theorem exec_cfgSrc (fs : Word) (s : State) :
    exec (.cfgSrc fs) s = runOperation (fsCheck fs.toNat) (cfgSrcCall fs s) id s := rfl

@[simp] theorem State.fresh_calls {s : State} (h : s.fresh) : s.prog.calls = 0 := by rw [h]; rfl

/-- The run of an operation that makes no call. -/
theorem completesWith_none {s : State} (result : Word → Word) (h : s.fresh) :
    CompletesWith result s [] (s.complete result) := by
  have h0 := State.fresh_calls h
  exact ⟨[], rfl, by simp [State.complete, h0, retAfter]⟩

/-- The run of an operation that makes one call. -/
theorem completesWith_one (s : State) (result : Word → Word) (c : BusCall) :
    CompletesWith result s [c] ((s.makeCall c).complete result) :=
  ⟨[s.answer c], by simp, by simp [State.complete, State.makeCall, retAfter]⟩

/-- The run of an operation that makes two calls. -/
theorem completesWith_two (s : State) (result : Word → Word) (c d : BusCall) :
    CompletesWith result s [c, d] (((s.makeCall c).makeCall d).complete result) :=
  ⟨[s.answer c, (s.makeCall c).answer d], by simp, by simp [State.complete, State.makeCall, retAfter]⟩

/-- The three steps of a gain operation that does not fault. -/
theorem gain_steps {s : State} {check : Option FaultCode} (aL aR : Half) (bL bR : Byte) (h : s.fresh) (hc : check = none) :
    runOperation check (gainCall aL aR bL bR s) id s = .next (s.makeCall (s.memWrite aL [bL])) ∧
    runOperation check (gainCall aL aR bL bR (s.makeCall (s.memWrite aL [bL]))) id (s.makeCall (s.memWrite aL [bL])) =
      .next ((s.makeCall (s.memWrite aL [bL])).makeCall (s.memWrite aR [bR])) ∧
    runOperation check (gainCall aL aR bL bR ((s.makeCall (s.memWrite aL [bL])).makeCall (s.memWrite aR [bR]))) id
        ((s.makeCall (s.memWrite aL [bL])).makeCall (s.memWrite aR [bR])) =
      .next (((s.makeCall (s.memWrite aL [bL])).makeCall (s.memWrite aR [bR])).complete id) := by
  have h0 := State.fresh_calls h
  exact ⟨runOperation_first_ok _ hc (by rw [h0]; rfl),
    runOperation_next_call _ _ (by simp) (by simp [h0, gainCall, State.memWrite, State.sendCommand]),
    runOperation_complete _ _ (.inl (by simp)) (by simp [gainCall, h0])⟩

/-- WAITLOCK's step after an odd number of calls: the read. -/
theorem waitLock_read {s : State} (h : s.prog.calls % 2 = 1) : exec .waitLock s = .next (s.makeCall (s.memReadData 6)) := by
  rw [exec_waitLock]; exact runOperation_first_ok _ rfl (by simp [waitLockCall, h, Config.statusReadLen])

/-- WAITLOCK's step between two cycles, or before the first, when no lock was seen: the address write. -/
theorem waitLock_write {s : State} (h : s.prog.calls % 2 = 0) (hl : s.prog.calls = 0 ∨ s.prog.locked = false) :
    exec .waitLock s = .next (s.makeCall (s.memReadAddress s.cfg.pllStatusAddr)) := by
  rw [exec_waitLock]
  refine runOperation_first_ok _ rfl ?_
  unfold waitLockCall; rw [if_neg (by omega), if_neg]
  rintro ⟨h0, h1⟩; rcases hl with hl | hl
  · exact h0 hl
  · rw [hl] at h1; cases h1

/-- WAITLOCK's step at the end of a cycle that has seen the lock: the completion. -/
theorem waitLock_complete {s : State} (h : s.prog.calls % 2 = 0) (h0 : s.prog.calls ≠ 0) (hl : s.prog.locked = true) :
    exec .waitLock s = .next (s.complete id) := by
  rw [exec_waitLock]
  refine runOperation_complete _ _ (.inl h0) ?_
  unfold waitLockCall; rw [if_neg (by omega), if_pos ⟨h0, hl⟩]

end Sys2Proof.Machine
end

