-- ==== Sys2Proof/Tests/Slice0.lean ====
section
/-! SUPPORT. The model's own tests: ill-formed terms refused, words written out from 30_encoding.md R70 to R73, one-step tests with
expected results from 95_test_vectors.md, and for every statement with hypotheses a concrete case that meets them. -/

open Sys2Proof Sys2Proof.Machine

namespace Sys2Proof.Tests

-- One theorem after the other: this file is many small evaluations, and a thread for each costs more memory than it saves time.
set_option Elab.async false

-- ---------------------------------------------------------------- WellFormed: each check refuses an ill-formed term

theorem test_wf_probe_limit : (Instr.probe 127#32).wf = true ∧ (Instr.probe 128#32).wf = false := by decide

theorem test_wf_default_parameters : Params.default.wf = true := by decide

theorem test_wf_disable_pattern_refused :
    ({ Params.default with pllDisable := [0#8, 0xFD#8, 0#8, 0x0C#8, 0x10#8] } : Params).disableWf = false ∧
    ({ Params.default with pllDisable := [0#8, 0xFD#8, 0#8, 0x0C#8, 0x10#8, 1#8] } : Params).wf = false := by decide

theorem test_wf_row_bytes_refused : ({ Params.default with tableRowBytes := 2 } : Params).rowWf = false ∧
    ({ Params.default with tableRowBytes := 2 } : Params).wf = false := by decide

theorem test_wf_src_writes_refused :
    ({ Params.default with srcWrites := [(192000, [[0x40#8, 0x17#8, 0#8]])] } : Params).srcWf = false ∧
    ({ Params.default with srcWrites := [(48000, [[0x40#8, 0x17#8]])] } : Params).wf = false := by decide

theorem test_wf_memory_order : Memory.wf [(1, 5#8), (0, 6#8)] = false ∧ Memory.wf [(1, 5#8), (1, 6#8)] = false ∧
    Memory.wf [(0, 5#8), (1, 6#8)] = true := by decide

-- ---------------------------------------------------------------- Decode: words written out as RSV, M, OP, A, B

/-- A word from its bit fields, in the order of 30_encoding.md R70. -/
def word (rsv : BitVec 3) (m : BitVec 1) (op : BitVec 4) (a b : Word) : Command := rsv ++ m ++ op ++ a ++ b

theorem test_decode_send : decode (word 0b000#3 0#1 0b0001#4 0x000000FA#32 0x00000006#32) = some (.send 250#32 6#32) := by decide
theorem test_decode_sendTbl : decode (word 0b000#3 0#1 0b0010#4 3#32 2#32) = some (.sendTbl 3#32 2#32) := by decide
theorem test_decode_probe : decode (word 0b000#3 0#1 0b0011#4 0x38#32 0#32) = some (.probe 0x38#32) := by decide
theorem test_decode_cfgPll : decode (word 0b000#3 0#1 0b0100#4 0xBB80#32 0xB71B00#32) = some (.cfgPll 48000#32 12000000#32) := by
  decide
theorem test_decode_waitLock : decode (word 0b000#3 0#1 0b0101#4 0#32 0#32) = some .waitLock := by decide
theorem test_decode_setLig : decode (word 0b000#3 1#1 0b0110#4 0x41A00000#32 0xC1F00000#32) =
    some (.setLig 0x41A00000#32 0xC1F00000#32 true) := by decide
theorem test_decode_setAxg : decode (word 0b000#3 0#1 0b0111#4 0#32 0xC0F00000#32) = some (.setAxg 0#32 0xC0F00000#32 false) := by
  decide
theorem test_decode_setLog : decode (word 0b000#3 0#1 0b1000#4 0x41400000#32 0xC28C0000#32) =
    some (.setLog 0x41400000#32 0xC28C0000#32 false) := by decide
theorem test_decode_setHpg : decode (word 0b000#3 1#1 0b1001#4 0#32 0#32) = some (.setHpg 0#32 0#32 true) := by decide
theorem test_decode_initCore : decode (word 0b000#3 0#1 0b1010#4 0#32 0#32) = some .initCore := by decide
theorem test_decode_disPll : decode (word 0b000#3 0#1 0b1011#4 0#32 0#32) = some .disPll := by decide
theorem test_decode_cfgSrc : decode (word 0b000#3 0#1 0b1100#4 0xAC44#32 0#32) = some (.cfgSrc 44100#32) := by decide

theorem test_decode_refused :
    decode (word 0b000#3 0#1 0b0000#4 0#32 0#32) = none ∧ decode (word 0b000#3 0#1 0b1101#4 0#32 0#32) = none ∧
    decode (word 0b001#3 0#1 0b0110#4 0#32 0#32) = none ∧ decode (word 0b000#3 1#1 0b0101#4 0#32 0#32) = none ∧
    decode (word 0b000#3 0#1 0b0101#4 0#32 1#32) = none ∧ decode (word 0b000#3 0#1 0b1100#4 48000#32 1#32) = none ∧
    decode (word 0b000#3 0#1 0b0011#4 128#32 0#32) = none := by decide

theorem test_decodeTableWord : decodeTableWord 72 0x040000BB8000B71B00 = some (.cfgPll 48000#32 12000000#32) ∧
    decodeTableWord 72 0x140000BB8000B71B00 = none := by decide

-- ---------------------------------------------------------------- one step of each instruction

/-- An engine out of reset with DEV_ADDR = 0x38, the value of the test vectors. -/
def idleState : State := { State.reset with devAddr := 0x38#7 }

/-- That engine with a command just issued. -/
def issued (w : Command) : State := idleState.issue w

/-- That engine after a BadFs fault. -/
def haltedState : State := idleState.raise .badFs

/-- An engine inside an operation: `calls` made, the last answered `ret`, its lock test `locked`. -/
def inside (w : Command) (calls : Nat) (ret : Word) (locked : Bool) : State := { issued w with prog := ⟨calls, ret, locked⟩ }

/-- CBUF[0..5] = 40 15 01 40 16 00, as in 95_test_vectors.md section 2.4. -/
def withTable (s : State) : State :=
  { s with cbuf := [(0, 0x40#8), (1, 0x15#8), (2, 0x01#8), (3, 0x40#8), (4, 0x16#8), (5, 0x00#8)] }

/-- The calls a step added to H. -/
def newCalls (o : Host.Outcome State Fault Refusal) : Option (List BusCall) :=
  match o with
  | .next t => some (t.hist.map eventCall)
  | .fault _ => none
  | .refused _ => none

/-- STATUS, RET and CP after a step. -/
def registers (o : Host.Outcome State Fault Refusal) : Option (Byte × Word × Word) :=
  match o with
  | .next t => some (t.status, t.ret, t.cp)
  | .fault _ => none
  | .refused _ => none

theorem test_send_bytes : newCalls (step (withTable (issued 0x010000000000000003#72))) =
    some [.write 0x38#7 [0x40#8, 0x15#8, 0x01#8] false] := by decide
theorem test_send_range : registers (step (issued 0x01000000FA00000007#72)) = some (0x16#8, 0#32, 0#32) := by decide

theorem test_sendTbl_second_row : newCalls (step { withTable (inside 0x020000000000000002#72 1 (-1#32) false) with hist := [] }) =
    some [.write 0x38#7 [0x40#8, 0x16#8, 0x00#8] false] := by decide
theorem test_sendTbl_no_row : registers (step (issued 0x020000000000000000#72)) = some (0x00#8, 0#32, 1#32) := by decide

theorem test_probe_addresses_operand : newCalls (step (issued 0x030000007F00000000#72)) = some [.write 0x7F#7 [] false] := by decide
theorem test_probe_result : registers (step (inside 0x030000003800000000#72 1 (-1#32) false)) = some (0x00#8, 0#32, 1#32) ∧
    registers (step (inside 0x030000003800000000#72 1 0#32 false)) = some (0x00#8, 1#32, 1#32) := by decide

theorem test_cfgPll_block : newCalls (step (issued 0x040000AC44007A1200#72)) =
    some [.write 0x38#7 [0x40#8, 0x02#8, 0x02#8, 0x71#8, 0x01#8, 0x93#8, 0x29#8, 0x01#8] false] := by decide +kernel
theorem test_cfgPll_fault : registers (step (issued 0x040002EE0000000001#72)) = some (0x06#8, 0#32, 0#32) ∧
    registers (step (issued 0x040000AC4400989680#72)) = some (0x0E#8, 0#32, 0#32) := by decide

theorem test_waitLock_next_cycle : newCalls (step (inside 0x050000000000000000#72 2 6#32 false)) =
    some [.write 0x38#7 [0x40#8, 0x02#8] true] := by decide
theorem test_waitLock_done : registers (step (inside 0x050000000000000000#72 2 (-1#32) true)) =
    some (0x00#8, -1#32, 1#32) := by decide

/-- 41_pll.md R146: bit 1 of the sixth byte alone. -/
theorem test_lock_bit :
    lockSeen [0xFF#8, 0xFF#8, 0xFF#8, 0xFF#8, 0xFF#8, 0xFD#8] = false ∧ lockSeen [0#8, 0#8, 0#8, 0#8, 0#8, 0x02#8] = true ∧
    lockSeen [0x00#8, 0x7D#8, 0x00#8, 0x0C#8, 0x21#8, 0x01#8] = false ∧
    lockSeen [0x00#8, 0x7D#8, 0x00#8, 0x0C#8, 0x21#8, 0x03#8] = true := by decide

theorem test_setLig_left : newCalls (step (issued 0x0641A00000C1F00000#72)) =
    some [.write 0x38#7 [0x40#8, 0x0A#8, 0x0F#8] false] := by decide +kernel
theorem test_setLig_muted_nan_right : newCalls (step (inside 0x167FC00000FFFFFFFF#72 1 3#32 false)) =
    some [.write 0x38#7 [0x40#8, 0x0C#8, 0x01#8] false] := by decide +kernel

theorem test_setAxg_right : newCalls (step (inside 0x0700000000C0F00000#72 1 3#32 false)) =
    some [.write 0x38#7 [0x40#8, 0x0D#8, 0x02#8] false] := by decide +kernel
theorem test_setAxg_threshold : newCalls (step (issued 0x07C110000040C00000#72)) =
    some [.write 0x38#7 [0x40#8, 0x0B#8, 0x02#8] false] := by decide +kernel

theorem test_setLog_left : newCalls (step (issued 0x0841400000C28C0000#72)) =
    some [.write 0x38#7 [0x40#8, 0x25#8, 0xFE#8] false] := by decide +kernel
theorem test_setLog_muted_nan : registers (step (issued 0x187FC0000000000000#72)) = some (0x1A#8, 0#32, 0#32) := by
  decide +kernel

theorem test_setHpg_muted : newCalls (step (issued 0x190000000000000000#72)) =
    some [.write 0x38#7 [0x40#8, 0x23#8, 0xE5#8] false] := by decide +kernel
theorem test_setHpg_right : newCalls (step (inside 0x19C1F0000040A00000#72 1 3#32 false)) =
    some [.write 0x38#7 [0x40#8, 0x24#8, 0xF9#8] false] := by decide +kernel

theorem test_initCore_bytes : newCalls (step (issued 0x0A0000000000000000#72)) =
    some [.write 0x38#7 [0x40#8, 0x00#8, 0x00#8] false] := by decide

theorem test_disPll_bytes : newCalls (step (issued 0x0B0000000000000000#72)) =
    some [.write 0x38#7 [0x40#8, 0x02#8, 0x00#8, 0xFD#8, 0x00#8, 0x0C#8, 0x10#8, 0x00#8] false] := by decide

theorem test_cfgSrc_empty : registers (step (issued 0x0C0000BB8000000000#72)) = some (0x00#8, 0#32, 1#32) ∧
    registers (step (issued 0x0C0002EE0000000000#72)) = some (0x06#8, 0#32, 0#32) := by decide
theorem test_cfgSrc_write : newCalls (step { issued 0x0C0000BB8000000000#72 with
    cfg := { Params.default with srcWrites := [(48000, [[0x40#8, 0x17#8, 0x00#8]])] } }) =
    some [.write 0x38#7 [0x40#8, 0x17#8, 0x00#8] false] := by decide

theorem test_illegal_word_halts : registers (step (issued 0x140002EE0000000000#72)) = some (0x12#8, 0#32, 0#32) := by decide

/-- 42_gain.md R166: where the two evaluations differ, and where they do not. -/
theorem test_gain_evaluation :
    inCode .exactReal 0x403FFFFF#32 = 5 ∧ outCode .exactReal 0x403FFFFF#32 = 59 ∧
    inCode .binary32 0x403FFFFF#32 = 6 ∧ outCode .binary32 0x403FFFFF#32 = 60 ∧
    inCode .exactReal 0x80000001#32 = 4 ∧ inCode .binary32 0x80000001#32 = 5 ∧
    inCode .binary32 0xC1100001#32 = 1 ∧ outCode .binary32 0xC1100001#32 = 48 ∧
    outCode .binary32 0xC2600001#32 = 0 ∧ outCode .exactReal 0xC2600000#32 = 1 := by decide +kernel

-- ---------------------------------------------------------------- the hypotheses of the statements can be met

theorem witness_HostResetRestoresEveryElement :
    ({ haltedState with script := [.reset 0x39#7] } : State).script = .reset 0x39#7 :: [] ∧
    ∃ s t, step s = .next t ∧ s.run = .halted ∧ t.run ≠ .halted :=
  ⟨rfl, { haltedState with script := [.reset 0x39#7] }, _, rfl, by decide, by decide⟩

theorem inv_of_fresh {s : State} (h1 : s.statusLegal) (h2 : s.cbufLegal) (h3 : s.fresh) : s.Inv :=
  ⟨h1, h2, ⟨fun _ => h3, fun _ => h3, fun h => absurd (State.fresh_calls h3) h⟩,
    by simp [State.fresh_calls h3], fun h => absurd (State.fresh_calls h3) h, fun h => absurd (State.fresh_calls h3) h⟩

theorem inv_issued : (issued 0x0A0000000000000000#72).Inv :=
  inv_of_fresh ⟨by decide, by decide, by decide, by decide⟩ ⟨rfl, by decide⟩ rfl

theorem witness_EveryStepKeepsTheMachineInvariant : ∃ s t : State, s.Inv ∧ step s = .next t ∧ s ≠ t :=
  ⟨issued 0x0A0000000000000000#72, _, inv_issued, rfl, fun h => by have := congrArg (fun s => s.prog.calls) h; exact absurd this (by decide)⟩

theorem witness_StatusMovesOnlyAsTheRuleSays : ∃ s t : State, s.Inv ∧ step s = .next t ∧ s.run = .idle ∧ t.run = .busy :=
  ⟨{ idleState with script := [.issue 0x050000000000000000#72] }, _,
    inv_of_fresh ⟨by decide, by decide, by decide, by decide⟩ ⟨rfl, by decide⟩ rfl, rfl, by decide, by decide⟩

theorem witness_DecodeOfEncodeIsTheInstruction : (Instr.probe 127#32).wf = true ∧ (Instr.probe 128#32).wf = false := by decide

theorem witness_EncodeOfDecodeIsTheWord : decode 0x030000007F00000000#72 = some (.probe 127#32) := by decide

/-- A BUSY engine with an illegal command in its latches, whatever the host's next move is, but a reset. -/
theorem witness_IllegalWordsAreTheListedOnes : ∀ script ∈ [[], [.wait], [.issue 5#72], [.writeCbuf 0 1#8]],
    (∀ strap rest, ({ issued 0x0D0000000000000000#72 with script := script } : State).script ≠ .reset strap :: rest) ∧
    ({ issued 0x0D0000000000000000#72 with script := script } : State).run = .busy ∧
    decodeFields (issued 0x0D0000000000000000#72).opc (issued 0x0D0000000000000000#72).opa (issued 0x0D0000000000000000#72).opb =
      none := by
  intro script hs
  refine ⟨fun _ _ h => ?_, rfl, rfl⟩
  have h : script = _ := h
  subst h; simp at hs

theorem witness_DecodeFollowsTheOneSelectedRow :
    (⟨"PROBE", 0x030000000000000000#72, 0xFFFFFFFF80FFFFFFFF#72⟩ : OpcodeRow) ∈ opcodeRows ∧
    (⟨"PROBE", 0x030000000000000000#72, 0xFFFFFFFF80FFFFFFFF#72⟩ : OpcodeRow).selects 0x030000007F00000000#72 = true ∧
    (∀ r ∈ opcodeRows, r.selects 0x030000008000000000#72 = false) := by decide

theorem witness_StepRunsTheDecodedCommand :
    (idleState.script = [] ∧ idleState.run = .idle) ∧
    ((issued 0x050000000000000000#72).script = [] ∧ (issued 0x050000000000000000#72).run = .busy ∧
      decodeFields (issued 0x050000000000000000#72).opc (issued 0x050000000000000000#72).opa
        (issued 0x050000000000000000#72).opb = some .waitLock) ∧
    ({ issued 0x050000000000000000#72 with script := [.wait, .reset 0#7] } : State).script = .wait :: [.reset 0#7] ∧
    (Instr.cfgSrc 48000#32).wf = true := by decide

theorem witness_CommandIssueLoadsTheLatches :
    (({ idleState with script := [.issue 5#72] } : State).script = .issue 5#72 :: [] ∧
      ({ idleState with script := [.issue 5#72] } : State).run = .idle) ∧
    (∃ t, ({ issued 0x0A0000000000000000#72 with script := [.issue 5#72] } : State).run = .busy ∧
      step { issued 0x0A0000000000000000#72 with script := [.issue 5#72] } = .next t) ∧
    ({ haltedState with script := [.issue 5#72] } : State).run = .halted :=
  ⟨⟨rfl, by decide⟩, ⟨_, by decide, rfl⟩, by decide⟩

theorem witness_SequencerAndInitializerFrame :
    (∃ t, exec (.send 0#32 3#32) idleState = .next t) ∧ (∃ t, exec (.sendTbl 0#32 86#32) idleState = .next t) ∧
    (∃ t, exec (.probe 0x38#32) idleState = .next t) ∧ (∃ t, exec .initCore idleState = .next t) ∧
    (∃ t, exec .disPll idleState = .next t) ∧ (∃ t, exec (.cfgSrc 48000#32) idleState = .next t) :=
  ⟨exec_next .., exec_next .., exec_next .., exec_next .., exec_next .., exec_next ..⟩

theorem witness_PllFrame : (∃ t, exec (.cfgPll 48000#32 12000000#32) idleState = .next t) ∧ (∃ t, exec .waitLock idleState = .next t) :=
  ⟨exec_next .., exec_next ..⟩

theorem witness_GainFrame :
    (∃ t, exec (.setLig 0#32 0#32 false) idleState = .next t) ∧ (∃ t, exec (.setAxg 0#32 0#32 false) idleState = .next t) ∧
    (∃ t, exec (.setLog 0#32 0#32 true) idleState = .next t) ∧ (∃ t, exec (.setHpg 0#32 0#32 true) idleState = .next t) :=
  ⟨exec_next .., exec_next .., exec_next .., exec_next ..⟩

theorem witness_HistoryGrowsByOneAnsweredCall : ∃ s t, step s = .next t ∧ (∀ strap rest, s.script ≠ .reset strap :: rest) ∧
    t.hist.length = 1 :=
  ⟨issued 0x0A0000000000000000#72, _, rfl, fun _ _ => by simp [issued, idleState, State.reset], rfl⟩

theorem witness_RetIsWrittenAtCompletionOnly :
    (∃ s t, exec .initCore s = .next t ∧ t.cp = s.cp ∧ t.prog.calls ≠ s.prog.calls) ∧
    (∃ s t, exec (.sendTbl 0#32 0#32) s = .next t ∧ t.cp ≠ s.cp ∧ s.prog.calls = 0) ∧
    (∃ s t, exec .disPll s = .next t ∧ t.cp ≠ s.cp ∧ s.prog.calls ≠ 0) ∧
    (∃ s t, exec (.probe 1#32) s = .next t ∧ t.cp ≠ s.cp ∧ s.prog.calls ≠ 0) :=
  ⟨⟨idleState, _, rfl, rfl, by decide⟩, ⟨idleState, _, rfl, by decide, rfl⟩,
   ⟨inside 0x0B0000000000000000#72 1 8#32 false, _, rfl, by decide, by decide⟩,
   ⟨inside 0x030000000100000000#72 1 (-1#32) false, _, rfl, by decide, by decide⟩⟩

theorem witness_CpCountsCompletionsAndIsNeverRead :
    ∃ s t, step s = .next t ∧ (∀ strap rest, s.script ≠ .reset strap :: rest) ∧ s.run = .busy ∧ t.run = .idle ∧
      s.cp = 0xFFFFFFFF#32 ∧ t.cp = 0#32 ∧ exec (.sendTbl 0#32 0#32) s = .next t :=
  ⟨{ issued 0x020000000000000000#72 with cp := 0xFFFFFFFF#32 }, _, rfl,
    fun _ _ => by simp [issued, idleState, State.reset], by decide, by decide, rfl, rfl, rfl⟩

theorem witness_SameCommandEmitsTheSameCalls : ∃ s t s' t' : State, SameInputs s t ∧ s.cp ≠ t.cp ∧ s.hist ≠ t.hist ∧
    exec .initCore s = .next s' ∧ exec .initCore t = .next t' :=
  ⟨idleState, { idleState with cp := 7#32, hist := [.write 0#7 [] false 0#32] }, _, _, ⟨rfl, rfl, rfl, rfl, fun _ => rfl⟩,
    by decide, by simp [idleState, State.reset], rfl, rfl⟩

theorem witness_SendTransmitsTheRangeAsItIs : (issued 0x010000010000000000#72).fresh ∧
    (256#32).toNat + (0#32).toNat ≤ (issued 0x010000010000000000#72).cfg.cbufSize ∧
    (issued 0x01FFFFFFFF00000002#72).cfg.cbufSize < (0xFFFFFFFF#32).toNat + (2#32).toNat := ⟨rfl, by decide, by decide⟩

theorem witness_SendTableIssuesEveryRowInOrder : idleState.fresh ∧
    (1#32).toNat + (85#32).toNat * idleState.cfg.tableRowBytes ≤ idleState.cfg.cbufSize ∧
    ((inside 0x020000000000000002#72 1 (-1#32) false).prog.calls ≠ 0 ∧
      (inside 0x020000000000000002#72 1 (-1#32) false).prog.calls < (2#32).toNat) ∧
    idleState.cfg.cbufSize < (0#32).toNat + (86#32).toNat * idleState.cfg.tableRowBytes :=
  ⟨rfl, by decide, by decide, by decide⟩

theorem witness_ProbeReportsTheSignOfTheAnswer : (issued 0x030000007F00000000#72).fresh := rfl

theorem witness_CfgPllValidatesFsThenMclock : idleState.fresh ∧
    (192000#32).toNat ∉ [8000, 16000, 24000, 32000, 48000, 96000, 11025, 22050, 44100, 88200] ∧
    ((48000#32).toNat ∈ [8000, 16000, 24000, 32000, 48000, 96000] ∧ (12000001#32).toNat ∉ Config.mclkSet) ∧
    ((44100#32).toNat ∈ [11025, 22050, 44100, 88200] ∧ (10000000#32).toNat ∉ Config.mclkSet) :=
  ⟨rfl, by decide, by decide, by decide⟩

theorem witness_FamilyAloneSelectsTheTarget : familyOf (8000#32).toNat = familyOf (96000#32).toNat ∧
    familyOf (8000#32).toNat ≠ none := by decide

theorem witness_CfgPllEmitsOneEightByteBlock : (issued 0x040000AC44007A1200#72).fresh ∧
    familyOf (44100#32).toNat = some .f441 ∧ (8000000#32).toNat ∈ Config.mclkSet := ⟨rfl, by decide, by decide⟩

theorem witness_InputDividerIsTheLeastThatQualifies : 27000000 ∈ Config.mclkSet ∧
    1 ≤ 1 ∧ 1 < (pllSearch 14000000 Config.fTarget48 27000000).x := ⟨by decide, by decide, by decide +kernel⟩

theorem witness_MultiplierIsTheClampedFloor : 13000000 ∈ Config.mclkSet ∧ 0 < 12000000 ∧
    1 ≤ ⌊((49152000 : ℚ) * (pllSearch 14000000 49152000 12000000).x) / 12000000⌋ ∧
    ⌊((49152000 : ℚ) * (pllSearch 14000000 49152000 12000000).x) / 12000000⌋ ≤ 8 :=
  ⟨by decide, by decide, by decide +kernel, by decide +kernel⟩

theorem witness_BestFracIsTheLexicographicMinimum : 0 < 2 ∧ FracCandidate 8190 8191 ∧ (8190, 8191) ≠ bestFrac 1 2 :=
  ⟨by decide, by unfold FracCandidate; decide, by decide +kernel⟩

theorem witness_SearchResultsAreInRange : 0 < 8000000 := by decide

theorem witness_ControlAndEnableByteLayout : (1 ≤ 1 ∧ 1 ≤ 4 ∧ 1 ≤ 1 ∧ 1 ≤ 8) ∧ (1 ≤ 4 ∧ 4 ≤ 4 ∧ 1 ≤ 8 ∧ 8 ≤ 8) ∧
    (pllControl ⟨4, 8, 1#16, 2#16, true, true⟩) = 0x07#8 := by decide

theorem witness_SearchResultsOfAllAdmittedPairs : 12288000 ∈ Config.mclkSet := by decide

theorem witness_OutputFrequencyMeetsTheTolerance : 8000000 ∈ Config.mclkSet ∧ 27000000 ∈ Config.mclkSet := by decide

theorem witness_SearchCornersAreDefined :
    1 * (pllSearch 2 1 2).x < 2 ∧ (0 < 1 ∧ 9 * 1 ≤ 9 * (pllSearch 1 9 1).x) ∧ 4 * 1 < 5 ∧
    ((0 : ℤ) < 1 ∧ (1 : ℤ) < (8192 : ℕ) ∧ 8191 < 8192 / Nat.gcd (1 : ℤ).toNat 8192) :=
  ⟨by show 1 * pllX 2 2 < 2; decide, ⟨by decide, by show 9 * 1 ≤ 9 * pllX 1 1; decide⟩, by decide, by decide⟩

theorem witness_WaitLockWritesThenReadsUntilLock : (issued 0x050000000000000000#72).fresh ∧
    (∀ k ∈ [1, 3], (inside 0x050000000000000000#72 k 6#32 false).prog.calls % 2 = 1) ∧
    (∀ locked, (inside 0x050000000000000000#72 2 6#32 locked).prog.calls % 2 = 0 ∧
      (inside 0x050000000000000000#72 2 6#32 locked).prog.calls ≠ 0 ∧
      (inside 0x050000000000000000#72 2 6#32 locked).prog.locked = locked) := ⟨rfl, by decide, by decide⟩

theorem witness_LockTestReadsOneBit : (inside 0x050000000000000000#72 3 6#32 false).prog.calls % 2 = 1 ∧
    ∃ (s t : State) (h : List BusEvent), h ≠ s.hist ∧ exec .waitLock s = .next t :=
  ⟨by decide, inside 0x050000000000000000#72 2 6#32 true, _, [.read 0x38#7 6 false 6#32 [0#8, 0#8, 0#8, 0#8, 0#8, 0xFD#8]],
    by simp [inside, issued, idleState, State.issue, State.reset], rfl⟩

theorem witness_WaitLockIgnoresReturnValues : ∃ s t, exec .waitLock s = .next t ∧ t.cp ≠ s.cp :=
  ⟨inside 0x050000000000000000#72 2 6#32 true, _, rfl, by decide⟩

theorem witness_WaitLockPollsWithoutBound :
    ((issued 0x050000000000000000#72).prog.calls % 2 = 0 ∧ (issued 0x050000000000000000#72).prog.calls = 0) ∧
    ((inside 0x050000000000000000#72 2 6#32 false).prog.calls % 2 = 0 ∧
      (inside 0x050000000000000000#72 2 6#32 false).prog.locked = false) ∧
    (inside 0x050000000000000000#72 1 6#32 false).prog.calls % 2 = 1 ∧
    (∀ k ∈ [0, 1, 2], (inside 0x050000000000000000#72 k 6#32 false).run = .busy ∧
      decodeFields (inside 0x050000000000000000#72 k 6#32 false).opc (inside 0x050000000000000000#72 k 6#32 false).opa
        (inside 0x050000000000000000#72 k 6#32 false).opb = some .waitLock) ∧
    (∀ k ∈ [0, 1, 2], ∃ t, step (inside 0x050000000000000000#72 k 6#32 false) = .next t) :=
  ⟨by decide, by decide, by decide, by decide, by intro k hk; fin_cases hk <;> exact ⟨_, rfl⟩⟩

theorem witness_InputCodeIsTheClampedFloor : f32Finite 0xC1480000#32 ∧ f32Real 0xC1480000#32 < -12 ∧ f32Finite 0x40D00000#32 ∧
    6 < f32Real 0x40D00000#32 := by
  refine ⟨by unfold f32Finite; decide, by decide +kernel, by unfold f32Finite; decide, by decide +kernel⟩

theorem witness_OutputCodeIsTheClampedFloor : f32Finite 0xC2660000#32 ∧ f32Real 0xC2660000#32 < -57 ∧ f32Finite 0x40D00000#32 ∧
    6 < f32Real 0x40D00000#32 := by
  refine ⟨by unfold f32Finite; decide, by decide +kernel, by unfold f32Finite; decide, by decide +kernel⟩

theorem witness_BinaryEvaluationIsAtMostOneCodeHigher : f32Finite 0x80000001#32 := by unfold f32Finite; decide

theorem witness_SpecialGainOperands : f32Finite 0x00000001#32 ∧ idleState.fresh ∧ f32IsNaN 0x7FC00000#32 = true ∧
    f32IsNaN 0x7F800001#32 = true ∧ f32IsNaN 0x7F800000#32 = false ∧ f32IsNaN 0x7F7FFFFF#32 = false :=
  ⟨by unfold f32Finite; decide, rfl, by decide, by decide, by decide, by decide⟩

theorem witness_BytePackings : (7#8).toNat < 8 ∧ (63#8).toNat < 64 := by decide

/-- For the input schemes: a fresh engine, an operand that is a NaN, operands that are none, and the muted case. -/
theorem witness_SetLineInputGainRun : idleState.fresh ∧ (f32IsNaN 0x7FC00000#32 || f32IsNaN 0#32) = true ∧
    (f32IsNaN 0x41A00000#32 || f32IsNaN 0xFF800000#32) = false ∧ (issued 0x167FC00000FFFFFFFF#72).fresh :=
  ⟨rfl, by decide, by decide, rfl⟩

theorem witness_SetAuxInputGainRun : idleState.fresh ∧ (f32IsNaN 0#32 || f32IsNaN 0x7F800001#32) = true ∧
    (f32IsNaN 0xC1100000#32 || f32IsNaN 0x40C00000#32) = false ∧ (issued 0x1700000000C0F00000#72).fresh :=
  ⟨rfl, by decide, by decide, rfl⟩

theorem witness_SetLineOutputGainRun : idleState.fresh ∧ (f32IsNaN 0x7FC00000#32 || f32IsNaN 0#32) = true ∧
    (f32IsNaN 0x41400000#32 || f32IsNaN 0xC28C0000#32) = false := ⟨rfl, by decide, by decide⟩

theorem witness_SetHeadphoneGainRun : idleState.fresh ∧ (f32IsNaN 0#32 || f32IsNaN 0xFFFFFFFF#32) = true ∧
    (f32IsNaN 0x7F800000#32 || f32IsNaN 0xFF800000#32) = false := ⟨rfl, by decide, by decide⟩

theorem witness_InitCoreWritesTheClockControl : (issued 0x0A0000000000000000#72).fresh := rfl

theorem witness_DisablePllWritesThePattern : (issued 0x0B0000000000000000#72).fresh ∧ Params.default.disableWf = true :=
  ⟨rfl, by decide⟩

/-- A parameter record with one write for 48000 Hz. -/
def srcParams : Params := { Params.default with srcWrites := [(44100, []), (48000, [[0x40#8, 0x17#8, 0#8]])] }

theorem witness_ConfigureSrcIssuesItsWritesInOrder : idleState.fresh ∧
    (192000#32).toNat ∉ [8000, 16000, 24000, 32000, 48000, 96000, 11025, 22050, 44100, 88200] ∧
    (88200#32).toNat ∈ [8000, 16000, 24000, 32000, 48000, 96000, 11025, 22050, 44100, 88200] ∧
    srcWritesFor idleState.cfg (88200#32).toNat = [] ∧
    ({ idleState with cfg := srcParams } : State).fresh ∧
    ((48000#32).toNat, [[0x40#8, 0x17#8, 0#8]]) ∈ srcParams.srcWrites ∧
    (∀ e ∈ srcParams.srcWrites, e.1 = (48000#32).toNat → e.2 = [[0x40#8, 0x17#8, 0#8]]) :=
  ⟨rfl, by decide, by decide, by decide, rfl, by decide, by decide⟩

theorem witness_SrcWritesAreTheFirstEntryOfTheRate :
    srcParams.srcWrites = [(44100, [])] ++ (48000, [[0x40#8, 0x17#8, 0#8]]) :: [] ∧
    (∀ e ∈ [((44100 : Nat), ([] : List (List Byte)))], e.1 ≠ 48000) ∧
    (∀ e ∈ srcParams.srcWrites, e.1 ≠ 8000) := by decide

theorem witness_FaultsPrecedeEveryTransaction :
    (∃ s t, exec (.cfgSrc 192000#32) s = .next t ∧ s.run ≠ .halted ∧ t.run = .halted) ∧
    (∃ s t, exec .waitLock s = .next t ∧ s.run ≠ .halted) :=
  ⟨⟨issued 0x0C0002EE0000000000#72, _, rfl, by decide, by decide⟩, ⟨issued 0x050000000000000000#72, _, rfl, by decide⟩⟩

theorem witness_HaltedIsTerminal :
    (∀ m ∈ [HostMove.writeCbuf 255 1#8, .wait, .issue 5#72, .reset 0#7], ({ haltedState with script := [m] } : State).run = .halted ∧
      ∃ t, step { haltedState with script := [m] } = .next t) ∧
    haltedState.run = .halted ∧ haltedState.script = [] :=
  ⟨by intro m hm; fin_cases hm <;> exact ⟨rfl, _, rfl⟩, by decide, rfl⟩

theorem witness_HostWriteIsReadBack :
    (({ idleState with script := [.writeCbuf 255 9#8] } : State).run = .idle ∧ 255 < idleState.cfg.cbufSize) ∧
    (({ haltedState with script := [.writeCbuf 0 9#8] } : State).run = .halted ∧ 0 < haltedState.cfg.cbufSize) := by decide

theorem witness_BusyEngineBlocksTheHost :
    ({ issued 0x050000000000000000#72 with script := [.issue 5#72] } : State).run = .busy ∧
    ({ issued 0x050000000000000000#72 with script := [.writeCbuf 0 1#8] } : State).run = .busy := by decide

end Sys2Proof.Tests
end

/-! PROOFS of the statements on the architectural state (10_state.md): reset, RET, CP and STATUS. -/

namespace Sys2Proof.Machine

-- ---------------------------------------------------------------- fields of STATUS

/-- The bits of a RUN value spell that value and no other. -/
theorem runOfBits_eq_iff (b : BitVec 2) (r : Run) : runOfBits b = r ↔ b = runBits r := by
  revert b; cases r <;> decide

/-- RUN is read off STATUS[1:0]. -/
theorem State.run_eq_iff (s : State) (r : Run) : s.run = r ↔ s.status.extractLsb' 0 2 = runBits r :=
  runOfBits_eq_iff _ r

@[simp] theorem State.reset_run : State.reset.run = .idle := (State.run_eq_iff _ _).mpr rfl

@[simp] theorem State.reset_faultField : State.reset.faultField = 0#4 := rfl

/-- Settles O1: each element is the field of `State.reset` itself. -/
theorem resetLeavesTheStatedValues : Obligations.ResetLeavesTheStatedValues :=
  ⟨rfl, rfl, rfl, State.reset_run, State.reset_faultField, rfl, rfl, fun _ => rfl, rfl⟩

-- ---------------------------------------------------------------- what a step does to STATUS and CP

/-- An engine step of a BUSY engine raises a fault, makes a call or completes, with the host's `wait` used up or not. -/
theorem EngineRuns.cases {s t : State} (h : EngineRuns s t) :
    s.run = .busy ∧ ∃ s0, (s0 = s ∨ s0 = s.popScript) ∧
      ((∃ f, t = s0.raise f) ∨ (∃ c, t = s0.makeCall c) ∨ (∃ result, t = s0.complete result)) := by
  obtain ⟨hrun, s0, hs0, ⟨i, -, hexec⟩ | ⟨-, rfl⟩⟩ := h
  · refine ⟨hrun, s0, hs0, ?_⟩
    obtain ⟨f, -, rfl⟩ | hcall | hcomplete := exec_cases hexec
    · exact .inl ⟨f, rfl⟩
    · exact .inr (.inl hcall)
    · exact .inr (.inr hcomplete)
  · exact ⟨hrun, s0, hs0, .inl ⟨_, rfl⟩⟩

/-- The five things a step of the machine can do to STATUS and CP (10_state.md R24, R27). -/
inductive StatusMove (s t : State) : Prop
  /-- the host's reset -/
  | reset (hscript : ∃ strap rest, s.script = .reset strap :: rest) (hstatus : t.status = 0#8)
  /-- a call, a CBUF write, or no move -/
  | keep (hstatus : t.status = s.status) (hcp : t.cp = s.cp)
  /-- a command issue -/
  | issue (hscript : ∃ w rest, s.script = .issue w :: rest) (hrun : s.run = .idle)
      (hstatus : t.status = statusWithRun s.status .busy) (hcp : t.cp = s.cp)
  /-- a completion -/
  | complete (hrun : s.run = .busy) (hstatus : t.status = statusWithRun s.status .idle) (hcp : t.cp = s.cp + 1#32)
  /-- a fault entry -/
  | raise (f : FaultCode) (hrun : s.run = .busy)
      (hstatus : t.status = statusWithRun (statusWithFault s.status (faultCode f)) .halted) (hcp : t.cp = s.cp)

theorem EngineRuns.statusMove {s t : State} (h : EngineRuns s t) : StatusMove s t := by
  obtain ⟨hrun, s0, hs0, hstep⟩ := h.cases
  have hstatus : s0.status = s.status := by rcases hs0 with rfl | rfl <;> rfl
  have hcp : s0.cp = s.cp := by rcases hs0 with rfl | rfl <;> rfl
  obtain ⟨f, rfl⟩ | ⟨c, rfl⟩ | ⟨result, rfl⟩ := hstep
  · exact .raise f hrun (by simp [hstatus]) (by simp [hcp])
  · exact .keep (by simp [hstatus]) (by simp [hcp])
  · exact .complete hrun (by simp [hstatus]) (by simp [hcp])

theorem step_statusMove {s t : State} (h : step s = .next t) : StatusMove s t := by
  obtain ⟨strap, rest, hs, rfl⟩ | ⟨w, rest, hs, hrun, rfl⟩ | ⟨a, b, rest, -, -, -, rfl⟩ |
    ⟨-, ⟨rfl, -⟩ | ⟨rest, -, rfl⟩⟩ | ⟨w, rest, -, -, rfl⟩ | hrun := step_cases h
  · exact .reset ⟨strap, rest, hs⟩ rfl
  · exact .issue ⟨w, rest, hs⟩ hrun rfl rfl
  · exact .keep rfl rfl
  · exact .keep rfl rfl
  · exact .keep rfl rfl
  · exact .keep rfl rfl
  · exact hrun.statusMove

-- ---------------------------------------------------------------- STATUS

/-- Outside HALTED a legal STATUS has FAULT = 0. -/
theorem State.statusLegal.faultField_eq_zero {s : State} (h : s.statusLegal) (hrun : s.run ≠ .halted) :
    s.faultField = 0#4 := by
  obtain ⟨-, -, hhalted, -⟩ := h
  by_contra hfault
  exact hrun (hhalted.mp hfault)

/-- Outside HALTED, making RUN IDLE or BUSY keeps STATUS legal. -/
theorem State.statusLegal.withRun {s t : State} {r : Run} (h : s.statusLegal) (hrun : s.run ≠ .halted)
    (hr : r = .idle ∨ r = .busy) (hstatus : t.status = statusWithRun s.status r) : t.statusLegal := by
  have hfault : statusFault s.status = 0#4 := h.faultField_eq_zero hrun
  obtain ⟨hreserved, -, -, -⟩ := h
  rcases hr with rfl | rfl <;> simp [State.statusLegal, State.run, State.faultField, hstatus, hreserved, hfault]

/-- Every move keeps STATUS legal. -/
theorem StatusMove.statusLegal {s t : State} (h : StatusMove s t) (hs : s.statusLegal) : t.statusLegal := by
  cases h with
  | reset _ hstatus => simp only [State.statusLegal, State.run, State.faultField, hstatus]; decide
  | keep hstatus => simpa only [State.statusLegal, State.run, State.faultField, hstatus] using hs
  | issue _ hrun hstatus => exact hs.withRun (by simp [hrun]) (.inr rfl) hstatus
  | complete hrun hstatus => exact hs.withRun (by simp [hrun]) (.inl rfl) hstatus
  | raise f hrun hstatus =>
    obtain ⟨hreserved, -, -, -⟩ := hs
    simp [State.statusLegal, State.run, State.faultField, hstatus, hreserved, faultCode_ne_zero, faultCode_le_six]

/-- What a move does to RUN and FAULT, in the terms of 10_state.md R24. -/
theorem StatusMove.run_fault {s t : State} (h : StatusMove s t) (hs : s.statusLegal) :
    (∃ strap rest, s.script = .reset strap :: rest) ∨
    (t.run = s.run ∧ t.faultField = s.faultField) ∨
    (s.run = .idle ∧ t.run = .busy ∧ t.faultField = s.faultField ∧ ∃ w rest, s.script = .issue w :: rest) ∨
    (s.run = .busy ∧ t.run = .idle ∧ t.faultField = s.faultField ∧ t.cp = s.cp + 1#32) ∨
    (s.run = .busy ∧ t.run = .halted ∧ s.faultField = 0#4 ∧ t.faultField ≠ 0#4) := by
  cases h with
  | reset hscript => exact .inl hscript
  | keep hstatus => exact .inr (.inl (by simp [State.run, State.faultField, hstatus]))
  | issue hscript hrun hstatus =>
    exact .inr (.inr (.inl ⟨hrun, by simp [State.run, hstatus], by simp [State.faultField, hstatus], hscript⟩))
  | complete hrun hstatus hcp =>
    exact .inr (.inr (.inr (.inl ⟨hrun, by simp [State.run, hstatus], by simp [State.faultField, hstatus], hcp⟩)))
  | raise f hrun hstatus =>
    exact .inr (.inr (.inr (.inr ⟨hrun, by simp [State.run, hstatus], hs.faultField_eq_zero (by simp [hrun]),
      by simp [State.faultField, hstatus, faultCode_ne_zero]⟩)))

/-- Settles O5: the step is one of the five moves, each of which keeps STATUS legal. -/
theorem statusMovesOnlyAsTheRuleSays : Obligations.StatusMovesOnlyAsTheRuleSays := by
  refine ⟨fun s => ⟨s.run_eq_iff .idle, s.run_eq_iff .busy, s.run_eq_iff .halted, rfl⟩, fun s t hinv hstep => ?_⟩
  obtain ⟨hlegal, -, -, -⟩ := hinv
  have hmove := step_statusMove hstep
  obtain ⟨hreserved, hrun, hfault, hcode⟩ := hmove.statusLegal hlegal
  exact ⟨hreserved, fun h3 => hrun ((t.run_eq_iff .reserved).mpr h3), hfault, hcode, hmove.run_fault hlegal⟩

-- ---------------------------------------------------------------- RET

/-- What an operation writes to RET from its last return value: PROBE its sign, every other operation the value itself
(10_state.md R23). -/
def retResult : Instr → Word → Word
  | .probe _ => probeResult
  | _ => id

theorem retResult_of_ne_probe {i : Instr} (h : ∀ addr, i ≠ .probe addr) : retResult i = id := by
  cases i with
  | probe addr => exact absurd rfl (h addr)
  | _ => rfl

/-- Every meaning completes with the RET of its instruction. -/
theorem exec_eq_runOperation_retResult (i : Instr) (s : State) :
    ∃ check call, exec i s = runOperation check call (retResult i) s := by
  cases i <;> exact ⟨_, _, rfl⟩

/-- The inversion of an engine step, with what a completion writes to RET. -/
theorem exec_cases_retResult {i : Instr} {s t : State} (h : exec i s = .next t) :
    (∃ f, t = s.raise f) ∨ (∃ c, t = s.makeCall c) ∨ t = s.complete (retResult i) := by
  obtain ⟨check, call, hexec⟩ := exec_eq_runOperation_retResult i s
  obtain ⟨f, -, -, ht⟩ | ⟨c, -, ht⟩ | ⟨-, ht⟩ := runOperation_cases (hexec ▸ h)
  · exact .inl ⟨f, ht⟩
  · exact .inr (.inl ⟨c, ht⟩)
  · exact .inr (.inr ht)

/-- A completion shows in CP. -/
theorem State.complete_cp_ne (result : Word → Word) (s : State) : (s.complete result).cp ≠ s.cp := by
  simp

/-- Settles O18: a fault and a call keep CP and RET, and a completion writes RET from the last return value. -/
theorem retIsWrittenAtCompletionOnly : Obligations.RetIsWrittenAtCompletionOnly := by
  intro i s t h
  obtain ⟨f, rfl⟩ | ⟨c, rfl⟩ | rfl := exec_cases_retResult h
  · simp
  · simp
  · have hcp := s.complete_cp_ne (retResult i)
    refine ⟨fun heq => absurd heq hcp, fun _ h0 => by simp [h0], fun _ h0 hi => ?_, fun _ h0 ⟨addr, hi⟩ => ?_,
      fun heq => absurd heq hcp⟩
    · simp [h0, retResult_of_ne_probe hi]
    · simp [h0, hi, retResult, probeResult]

-- ---------------------------------------------------------------- CP

/-- An instruction's fault condition, calls and RET do not read CP. -/
theorem exec_eq_runOperation_any_cp (i : Instr) (s : State) (c : Word) :
    ∃ check call result, exec i s = runOperation check call result s ∧
      exec i { s with cp := c } = runOperation check call result { s with cp := c } := by
  cases i <;> exact ⟨_, _, _, rfl, rfl⟩

/-- An operation's step adds to CP what it adds, whatever CP is, and does the rest alike. -/
theorem runOperation_any_cp {check : Option FaultCode} {call : Nat → Option BusCall} {result : Word → Word} {s t : State}
    (c : Word) (h : runOperation check call result s = .next t) :
    runOperation check call result { s with cp := c } = .next { t with cp := c + (t.cp - s.cp) } := by
  unfold runOperation at h ⊢
  split at h
  · next f hcheck =>
    obtain rfl := Host.Outcome.next.inj h
    simp [hcheck, State.raise]
  · next hcheck =>
    split at h <;> obtain rfl := Host.Outcome.next.inj h
    · next k hcall => simp [hcheck, hcall, State.makeCall, State.answer]
    · next hcall => simp [hcheck, hcall, State.complete]

/-- Settles O19: only the completion among a step's moves counts, and no part of an operation reads CP. -/
theorem cpCountsCompletionsAndIsNeverRead : Obligations.CpCountsCompletionsAndIsNeverRead := by
  refine ⟨rfl, fun s t h hreset => ?_, fun i s t c h => ?_⟩
  · cases step_statusMove h with
    | reset hscript =>
      obtain ⟨strap, rest, hs⟩ := hscript
      exact absurd hs (hreset strap rest)
    | keep hstatus hcp =>
      have hrun : t.run = s.run := congrArg statusRun hstatus
      exact ⟨.inr hcp, by simp +contextual [hrun]⟩
    | issue _ hrun _ hcp => exact ⟨.inr hcp, by simp [hrun]⟩
    | complete hrun hstatus hcp => exact ⟨.inl ⟨hcp, hrun, by simp [State.run, hstatus]⟩, fun _ _ => hcp⟩
    | raise f hrun hstatus hcp => exact ⟨.inr hcp, by simp [State.run, hstatus]⟩
  · obtain ⟨check, call, result, hs, hc⟩ := exec_eq_runOperation_any_cp i s c
    rw [hc]
    exact runOperation_any_cp c (hs ▸ h)

end Sys2Proof.Machine

/-! PROOFS of the statements on the command word (30_encoding.md): serialisation, the opcode table, the illegal words. -/

namespace Sys2Proof

-- ---------------------------------------------------------------- serialisation

/-- A slice of a slice of a command word is a slice of the word. -/
theorem Command.extractLsb'_extractLsb' (w : Command) {base n start len : Nat} (h : start + len ≤ n) :
    (w.extractLsb' base n).extractLsb' start len = w.extractLsb' (base + start) len := by
  ext j hj
  simp [Nat.add_assoc]
  omega

/-- The nine bytes of a word are OPC and the bytes of its two operands. -/
theorem Command.toBytes_eq (w : Command) : w.toBytes =
    [w.opc, w.opa.extractLsb' 24 8, w.opa.extractLsb' 16 8, w.opa.extractLsb' 8 8, w.opa.extractLsb' 0 8,
     w.opb.extractLsb' 24 8, w.opb.extractLsb' 16 8, w.opb.extractLsb' 8 8, w.opb.extractLsb' 0 8] := by
  simp [Command.toBytes, List.range_succ, Command.opc, Command.opa, Command.opb, Command.extractLsb'_extractLsb']

/-- Settles O10: the bytes are the fields' bytes, and the decoder joins them to the word again. -/
theorem serialisationIsBigEndian : Obligations.SerialisationIsBigEndian :=
  ⟨Command.toBytes_eq, decodeBytes_toBytes, by decide⟩

-- ---------------------------------------------------------------- the slices of a word that R78 names

theorem Command.extract_rsv (w : Command) : w.extractLsb' 69 3 = opcRsv w.opc :=
  (w.extractLsb'_extractLsb' (n := 8) (start := 5) (len := 3) (by decide)).symm

theorem Command.extract_op (w : Command) : w.extractLsb' 64 4 = opcOp w.opc :=
  (w.extractLsb'_extractLsb' (n := 8) (start := 0) (len := 4) (by decide)).symm

theorem Command.getLsbD_mute (w : Command) : w.getLsbD 68 = opcMute w.opc := by
  simp [opcMute, Command.opc]

theorem Command.extract_opb (w : Command) : w.extractLsb' 0 32 = w.opb := rfl

/-- A[31:7] = 0 is the address limit of PROBE. -/
theorem Command.extract_addrHigh_eq_zero (w : Command) : w.extractLsb' 39 25 = 0#25 ↔ w.opa.toNat < 128 := by
  simp only [Command.opa, ← BitVec.toNat_inj, BitVec.extractLsb'_toNat, Nat.shiftRight_eq_div_pow, BitVec.toNat_ofNat]
  omega

theorem Command.extract_operands_eq_zero (w : Command) : w.extractLsb' 0 64 = 0#64 ↔ w.opa = 0#32 ∧ w.opb = 0#32 := by
  simp only [Command.opa, Command.opb, ← BitVec.toNat_inj, BitVec.extractLsb'_toNat, Nat.shiftRight_eq_div_pow,
    BitVec.toNat_ofNat]
  omega

-- ---------------------------------------------------------------- the decoder

/-- A value of OP is one of sixteen. -/
theorem op_eq_ofFin (op : BitVec 4) : ∃ n : Fin 16, op = .ofFin n := ⟨op.toFin, rfl⟩

/-- What the decoder refuses once RSV = 0 (30_encoding.md R78). -/
theorem decodeOp_eq_none_iff (mute : Bool) (a b : Word) (op : BitVec 4) :
    decodeOp mute a b op.toNat = none ↔
      (op = 0x0#4 ∨ op = 0xD#4 ∨ op = 0xE#4 ∨ op = 0xF#4 ∨
       (mute = true ∧ ¬ (0x6#4 ≤ op ∧ op ≤ 0x9#4)) ∨
       (op = 0x3#4 ∧ (128 ≤ a.toNat ∨ b ≠ 0#32)) ∨
       ((op = 0x5#4 ∨ op = 0xA#4 ∨ op = 0xB#4) ∧ ¬ (a = 0#32 ∧ b = 0#32)) ∨
       (op = 0xC#4 ∧ b ≠ 0#32)) := by
  obtain ⟨n, rfl⟩ := op_eq_ofFin op
  fin_cases n <;> simp [decodeOp, or_assoc, imp_iff_not_or]

theorem decodeFields_eq_none_iff (opc : Byte) (a b : Word) :
    decodeFields opc a b = none ↔ (opcRsv opc ≠ 0#3 ∨ decodeOp (opcMute opc) a b (opcOp opc).toNat = none) := by
  unfold decodeFields
  split <;> simp [*]

/-- An opcode byte with RSV = 0 is put together from its OP and its M. -/
theorem gainOpc_op_mute {opc : Byte} (h : opcRsv opc = 0#3) : gainOpc (opcOp opc) (opcMute opc) = opc := by
  revert opc; decide

/-- What an operation number decodes to has that number, that M and those operands in its encoding. -/
theorem encode_of_decodeOp {mute : Bool} {a b : Word} {op : BitVec 4} {i : Instr}
    (h : decodeOp mute a b op.toNat = some i) : encode i = .ofFields (gainOpc op mute) a b ∧ i.wf = true := by
  obtain ⟨n, rfl⟩ := op_eq_ofFin op
  fin_cases n <;> simp [decodeOp] at h
  · obtain ⟨rfl, rfl⟩ := h; exact ⟨rfl, rfl⟩
  · obtain ⟨rfl, rfl⟩ := h; exact ⟨rfl, rfl⟩
  · obtain ⟨⟨⟨rfl, haddr⟩, rfl⟩, rfl⟩ := h; exact ⟨rfl, decide_eq_true haddr⟩
  · obtain ⟨rfl, rfl⟩ := h; exact ⟨rfl, rfl⟩
  · obtain ⟨⟨⟨rfl, rfl⟩, rfl⟩, rfl⟩ := h; exact ⟨rfl, rfl⟩
  iterate 4 (· obtain rfl := h; exact ⟨rfl, rfl⟩)
  · obtain ⟨⟨⟨rfl, rfl⟩, rfl⟩, rfl⟩ := h; exact ⟨rfl, rfl⟩
  · obtain ⟨⟨⟨rfl, rfl⟩, rfl⟩, rfl⟩ := h; exact ⟨rfl, rfl⟩
  · obtain ⟨⟨rfl, rfl⟩, rfl⟩ := h; exact ⟨rfl, rfl⟩

/-- A word that decodes is the encoding of what it decodes to, which is well formed. -/
theorem encode_of_decode {w : Command} {i : Instr} (h : decode w = some i) : encode i = w ∧ i.wf = true := by
  unfold decode decodeFields at h
  split at h
  · next hrsv =>
    obtain ⟨hencode, hwf⟩ := encode_of_decodeOp h
    rw [gainOpc_op_mute hrsv, Command.ofFields_fields] at hencode
    exact ⟨hencode, hwf⟩
  · cases h

-- ---------------------------------------------------------------- the opcode table

/-- PROBE's mask of operand A is its address limit. -/
theorem and_addrMask_eq_zero (a : Word) : a &&& 0xFFFFFF80#32 = 0#32 ↔ a.toNat < 128 := by
  have hlow : a &&& 0x7F#32 = a ↔ a.toNat < 128 := by
    rw [← BitVec.toNat_inj, BitVec.toNat_and]
    show a.toNat &&& (2 ^ 7 - 1) = a.toNat ↔ a.toNat < 128
    rw [Nat.and_two_pow_sub_one_eq_mod]
    omega
  rw [← hlow]
  constructor
  · intro hhigh
    calc a &&& 0x7F#32 = (a &&& 0x7F#32) ||| (a &&& 0xFFFFFF80#32) := by simp [hhigh]
      _ = a &&& (0x7F#32 ||| 0xFFFFFF80#32) := by rw [BitVec.and_or_distrib_left]
      _ = a := BitVec.and_allOnes
  · intro h
    rw [← h, BitVec.and_assoc]
    exact BitVec.and_zero

theorem OpcodeRow.selects_ofFields (r : OpcodeRow) (opc : Byte) (a b : Word) :
    r.selects (.ofFields opc a b) = true ↔
      (opc &&& r.mask.opc = r.matchBits.opc ∧ a &&& r.mask.opa = r.matchBits.opa ∧ b &&& r.mask.opb = r.matchBits.opb) := by
  rw [OpcodeRow.selects_iff, Command.opc_ofFields, Command.opa_ofFields, Command.opb_ofFields]

/-- Row `k` of the table selects a word whose masked fields match. -/
theorem exists_row_selects_ofFields {opc : Byte} {a b : Word} (k : Fin 12)
    (h : opc &&& opcodeRows[k].mask.opc = opcodeRows[k].matchBits.opc ∧
      a &&& opcodeRows[k].mask.opa = opcodeRows[k].matchBits.opa ∧
      b &&& opcodeRows[k].mask.opb = opcodeRows[k].matchBits.opb) :
    ∃ r ∈ opcodeRows, r.selects (.ofFields opc a b) = true :=
  ⟨opcodeRows[k], List.getElem_mem _, (OpcodeRow.selects_ofFields ..).mpr h⟩

/-- Every instruction that has an encoding has a row that selects it. -/
theorem exists_row_selects_encode (i : Instr) (hwf : i.wf = true) : ∃ r ∈ opcodeRows, r.selects (encode i) = true := by
  have hgain (op : BitVec 4) (mute : Bool) : gainOpc op mute &&& 0xEF#8 = plainOpc op := by revert op mute; decide
  cases i with
  | send => exact exists_row_selects_ofFields 0 ⟨rfl, BitVec.and_zero, BitVec.and_zero⟩
  | sendTbl => exact exists_row_selects_ofFields 1 ⟨rfl, BitVec.and_zero, BitVec.and_zero⟩
  | probe addr =>
    have haddr : addr &&& 0xFFFFFF80#32 = 0#32 := (and_addrMask_eq_zero addr).mpr (of_decide_eq_true hwf)
    exact exists_row_selects_ofFields 2 ⟨rfl, haddr, rfl⟩
  | cfgPll => exact exists_row_selects_ofFields 3 ⟨rfl, BitVec.and_zero, BitVec.and_zero⟩
  | waitLock => exact exists_row_selects_ofFields 4 ⟨rfl, rfl, rfl⟩
  | setLig _ _ mute => exact exists_row_selects_ofFields 5 ⟨hgain _ mute, BitVec.and_zero, BitVec.and_zero⟩
  | setAxg _ _ mute => exact exists_row_selects_ofFields 6 ⟨hgain _ mute, BitVec.and_zero, BitVec.and_zero⟩
  | setLog _ _ mute => exact exists_row_selects_ofFields 7 ⟨hgain _ mute, BitVec.and_zero, BitVec.and_zero⟩
  | setHpg _ _ mute => exact exists_row_selects_ofFields 8 ⟨hgain _ mute, BitVec.and_zero, BitVec.and_zero⟩
  | initCore => exact exists_row_selects_ofFields 9 ⟨rfl, rfl, rfl⟩
  | disPll => exact exists_row_selects_ofFields 10 ⟨rfl, rfl, rfl⟩
  | cfgSrc => exact exists_row_selects_ofFields 11 ⟨rfl, BitVec.and_zero, rfl⟩

/-- The two-operand rows leave the decoder their operation without mute. -/
theorem decode_of_twoOperandMask {w : Command} {op : BitVec 4} (hopc : w.opc &&& 0xFF#8 = plainOpc op) :
    decode w = decodeOp false w.opa w.opb op.toNat := by
  rw [show w.opc &&& 0xFF#8 = w.opc from BitVec.and_allOnes] at hopc
  rw [decode, hopc, decodeFields_plainOpc]

/-- The rows whose mask covers B leave it zero. -/
theorem decode_of_oneOperandMask {w : Command} {op : BitVec 4} (hopc : w.opc &&& 0xFF#8 = plainOpc op)
    (hb : w.opb &&& 0xFFFFFFFF#32 = 0#32) : decode w = decodeOp false w.opa 0#32 op.toNat := by
  rw [show w.opb &&& 0xFFFFFFFF#32 = w.opb from BitVec.and_allOnes] at hb
  rw [decode_of_twoOperandMask hopc, hb]

/-- The rows whose mask covers A and B leave both zero. -/
theorem decode_of_noOperandMask {w : Command} {op : BitVec 4} (hopc : w.opc &&& 0xFF#8 = plainOpc op)
    (ha : w.opa &&& 0xFFFFFFFF#32 = 0#32) (hb : w.opb &&& 0xFFFFFFFF#32 = 0#32) :
    decode w = decodeOp false 0#32 0#32 op.toNat := by
  rw [show w.opa &&& 0xFFFFFFFF#32 = w.opa from BitVec.and_allOnes] at ha
  rw [decode_of_oneOperandMask hopc hb, ha]

/-- The gain rows leave the decoder their operation with either mute. -/
theorem decode_of_gainMask {w : Command} {op : BitVec 4} (hopc : w.opc &&& 0xEF#8 = plainOpc op) :
    decode w = decodeOp (opcMute w.opc) w.opa w.opb op.toNat := by
  have hfields : ∀ (opc : Byte) (op : BitVec 4), opc &&& 0xEF#8 = plainOpc op → opcRsv opc = 0#3 ∧ opcOp opc = op := by
    decide
  obtain ⟨hrsv, hop⟩ := hfields w.opc op hopc
  rw [decode, decodeFields, if_pos hrsv, hop]

/-- A word that selects a row decodes to that row's operation. -/
theorem decode_of_selects {w : Command} {r : OpcodeRow} (hr : r ∈ opcodeRows) (h : r.selects w = true) :
    ∃ i, decode w = some i ∧ i.mnemonic = r.mnemonic := by
  obtain ⟨hopc, ha, hb⟩ := (r.selects_iff w).mp h
  fin_cases hr
  · exact ⟨_, decode_of_twoOperandMask (op := 0x1#4) hopc, rfl⟩
  · exact ⟨_, decode_of_twoOperandMask (op := 0x2#4) hopc, rfl⟩
  · have haddr : w.opa.toNat < 128 := (and_addrMask_eq_zero w.opa).mp ha
    exact ⟨.probe w.opa, (decode_of_oneOperandMask (op := 0x3#4) hopc hb).trans (if_neg (by simpa using haddr)), rfl⟩
  · exact ⟨_, decode_of_twoOperandMask (op := 0x4#4) hopc, rfl⟩
  · exact ⟨_, decode_of_noOperandMask (op := 0x5#4) hopc ha hb, rfl⟩
  · exact ⟨_, decode_of_gainMask (op := 0x6#4) hopc, rfl⟩
  · exact ⟨_, decode_of_gainMask (op := 0x7#4) hopc, rfl⟩
  · exact ⟨_, decode_of_gainMask (op := 0x8#4) hopc, rfl⟩
  · exact ⟨_, decode_of_gainMask (op := 0x9#4) hopc, rfl⟩
  · exact ⟨_, decode_of_noOperandMask (op := 0xA#4) hopc ha hb, rfl⟩
  · exact ⟨_, decode_of_noOperandMask (op := 0xB#4) hopc ha hb, rfl⟩
  · exact ⟨_, decode_of_oneOperandMask (op := 0xC#4) hopc hb, rfl⟩

/-- No two rows share a mnemonic. -/
theorem opcodeRows_mnemonic_inj : ∀ r ∈ opcodeRows, ∀ r' ∈ opcodeRows, r.mnemonic = r'.mnemonic → r = r' := by decide

/-- Settles O9: a selected row names the one operation the word decodes to, and a word that decodes is an encoding, which its
instruction's row selects. -/
theorem decodeFollowsTheOneSelectedRow : Obligations.DecodeFollowsTheOneSelectedRow := by
  refine fun w => ⟨fun r hr r' hr' hsel hsel' => ?_, fun r hr hsel => decode_of_selects hr hsel, fun hnone => ?_⟩
  · obtain ⟨i, hi, hmnemonic⟩ := decode_of_selects hr hsel
    obtain ⟨i', hi', hmnemonic'⟩ := decode_of_selects hr' hsel'
    obtain rfl : i = i' := Option.some.inj (hi ▸ hi')
    exact opcodeRows_mnemonic_inj r hr r' hr' (hmnemonic ▸ hmnemonic')
  · by_contra hlegal
    obtain ⟨i, hi⟩ := Option.ne_none_iff_exists'.mp hlegal
    obtain ⟨rfl, hwf⟩ := encode_of_decode hi
    obtain ⟨r, hr, hsel⟩ := exists_row_selects_encode i hwf
    exact absurd hsel (by simp [hnone r hr])

end Sys2Proof

-- ---------------------------------------------------------------- illegal words

namespace Sys2Proof.Machine

/-- A BUSY engine takes its step whatever move the host has next but a reset, with a `wait` used up. -/
theorem step_of_busy {s : State} (hreset : ∀ strap rest, s.script ≠ .reset strap :: rest) (hrun : s.run = .busy) :
    ∃ s0, (s0 = s ∨ s0 = s.popScript) ∧ step s = engineStep s0 := by
  unfold step machineStep
  split
  · exact ⟨s, .inl rfl, rfl⟩
  · exact ⟨s, .inl rfl, by simp [hostIssue, hrun]⟩
  · exact ⟨s, .inl rfl, by simp [hostWriteCbuf, hrun]⟩
  · next strap rest hs => exact absurd hs (hreset strap rest)
  · exact ⟨s.popScript, .inr rfl, by simp [hostWait, hrun]⟩

/-- The engine's turn on an illegal command. -/
theorem engineStep_illegal {s : State} (hrun : s.run = .busy) (hnone : decodeFields s.opc s.opa s.opb = none) :
    engineStep s = .next (s.raise .illegalCommand) := by
  simp [engineStep, hrun, hnone]

/-- An illegal command halts the engine with IllegalCommand and keeps H, RET and CP (30_encoding.md R78). -/
theorem step_illegal {s : State} (hreset : ∀ strap rest, s.script ≠ .reset strap :: rest) (hrun : s.run = .busy)
    (hnone : decodeFields s.opc s.opa s.opb = none) :
    ∃ t, step s = .next t ∧ t.run = .halted ∧ t.faultField = 4#4 ∧ t.hist = s.hist ∧ t.ret = s.ret ∧ t.cp = s.cp := by
  obtain ⟨s0, rfl | rfl, hstep⟩ := step_of_busy hreset hrun
  all_goals exact ⟨_, hstep.trans (engineStep_illegal hrun hnone), by simp [faultCode]⟩

/-- Settles O8: the slices R78 names are the decoder's fields, and the engine's turn raises the fault. -/
theorem illegalWordsAreTheListedOnes : Obligations.IllegalWordsAreTheListedOnes := by
  refine ⟨fun w => ?_, fun s hreset hrun hnone => step_illegal hreset hrun hnone⟩
  simp only [decode, decodeFields_eq_none_iff, decodeOp_eq_none_iff, w.extract_rsv, w.extract_op, w.getLsbD_mute,
    w.extract_opb, ne_eq, w.extract_addrHigh_eq_zero, w.extract_operands_eq_zero, not_lt]

end Sys2Proof.Machine

/-! PROOFS of the statements on the Command Sequencer and the Device Prober (40_sequencer.md): SendCommand, SEND, SENDTBL, PROBE. -/

namespace Sys2Proof.Machine

-- ---------------------------------------------------------------- a run of calls

/-- The state after the calls of a list have been made one after another, each answered in the state the one before it left. -/
def State.makeCalls (s : State) (calls : List BusCall) : State := calls.foldl (fun t c => t.makeCall c) s

@[simp] theorem State.makeCalls_nil (s : State) : s.makeCalls [] = s := rfl

@[simp] theorem State.makeCalls_cons (s : State) (c : BusCall) (calls : List BusCall) :
    s.makeCalls (c :: calls) = (s.makeCall c).makeCalls calls := rfl

theorem State.makeCalls_concat (s : State) (calls : List BusCall) (c : BusCall) :
    s.makeCalls (calls ++ [c]) = (s.makeCalls calls).makeCall c := by
  simp [State.makeCalls]

/-- A run of calls adds one event a call to H and counts the calls; of the rest only the progress record moves. -/
theorem State.makeCalls_eq (s : State) (calls : List BusCall) :
    ∃ es prog, es.map eventCall = calls ∧ prog.calls = s.prog.calls + calls.length ∧
      s.makeCalls calls = { s with hist := s.hist ++ es, seed := s.seed + calls.length, prog := prog } := by
  induction calls using List.reverseRecOn with
  | nil => exact ⟨[], s.prog, rfl, rfl, by simp⟩
  | append_singleton calls c ih =>
    obtain ⟨es, prog, hes, hprog, hs⟩ := ih
    refine ⟨es ++ [(s.makeCalls calls).answer c], ((s.makeCalls calls).makeCall c).prog, by simp [hes], ?_,
      (s.makeCalls_concat calls c).trans ?_⟩
    · simp [hs, hprog, Nat.add_assoc]
    · simp [hs, State.makeCall, Nat.add_assoc]

@[simp] theorem State.makeCalls_devAddr (s : State) (calls : List BusCall) : (s.makeCalls calls).devAddr = s.devAddr := by
  obtain ⟨es, prog, -, -, hs⟩ := s.makeCalls_eq calls
  rw [hs]

@[simp] theorem State.makeCalls_cfg (s : State) (calls : List BusCall) : (s.makeCalls calls).cfg = s.cfg := by
  obtain ⟨es, prog, -, -, hs⟩ := s.makeCalls_eq calls
  rw [hs]

@[simp] theorem State.makeCalls_calls (s : State) (calls : List BusCall) :
    (s.makeCalls calls).prog.calls = s.prog.calls + calls.length := by
  obtain ⟨es, prog, -, hprog, hs⟩ := s.makeCalls_eq calls
  rw [hs, hprog]

/-- After a run of calls CBUF reads as before it, but with the draw counter moved on by one a call (log entry 5). -/
theorem State.makeCalls_readCbuf (s : State) (calls : List BusCall) (i : Nat) :
    (s.makeCalls calls).readCbuf i = ({ s with seed := s.seed + calls.length } : State).readCbuf i := by
  obtain ⟨es, prog, -, -, hs⟩ := s.makeCalls_eq calls
  rw [hs]; rfl

theorem State.fresh.calls_eq_zero {s : State} (h : s.fresh) : s.prog.calls = 0 := congrArg Progress.calls h

/-- A completion after a run of calls has run the operation of exactly these calls (10_state.md R23). -/
theorem State.fresh.completesWith {s : State} (h : s.fresh) (result : Word → Word) (calls : List BusCall) :
    CompletesWith result s calls ((s.makeCalls calls).complete result) := by
  rcases List.eq_nil_or_concat' calls with rfl | ⟨calls, c, rfl⟩
  · exact ⟨[], rfl, by simp [State.complete, retAfter, h.calls_eq_zero]⟩
  · obtain ⟨es, prog, hes, -, hs⟩ := s.makeCalls_eq calls
    refine ⟨es ++ [(s.makeCalls calls).answer c], by simp [hes], ?_⟩
    rw [s.makeCalls_concat]
    simp [hs, State.complete, State.makeCall, retAfter, Nat.add_assoc]

/-- An operation that makes the calls of a list one a step and completes after the last runs to its end in one step more than it
makes calls. -/
theorem execN_makeCalls {i : Instr} {result : Word → Word} {s : State} {calls : List BusCall}
    (hcall : ∀ k (hk : k < calls.length),
      exec i (s.makeCalls (calls.take k)) = .next ((s.makeCalls (calls.take k)).makeCall calls[k]))
    (hdone : exec i (s.makeCalls calls) = .next ((s.makeCalls calls).complete result)) :
    execN i (calls.length + 1) s = .next ((s.makeCalls calls).complete result) := by
  induction calls generalizing s with
  | nil =>
    have hlast : exec i s = .next (s.complete result) := hdone
    simp [execN, hlast]
  | cons c calls ih =>
    have hfirst : exec i s = .next (s.makeCall c) := hcall 0 (by simp)
    rw [execN, hfirst]
    exact ih (fun k hk => hcall (k + 1) (by simpa using hk)) hdone

-- ---------------------------------------------------------------- SendCommand

/-- A transport call writes nothing that no operation writes. -/
theorem State.makeCall_untouched (s : State) (c : BusCall) : Untouched s (s.makeCall c) :=
  ⟨rfl, rfl, rfl, rfl, rfl, fun _ => rfl, rfl, rfl, rfl⟩

/-- Settles O21: the call is the write itself, and its event holds the responder's return value. -/
theorem sendCommandIsOneWriteToDevAddr : Obligations.SendCommandIsOneWriteToDevAddr := fun s bytes =>
  ⟨eventRet (s.answer (s.sendCommand bytes)), rfl, rfl, rfl, rfl, rfl, s.makeCall_untouched _⟩

-- ---------------------------------------------------------------- the range of CBUF

/-- A range inside CBUF passes (60_exceptions.md R215). -/
theorem rangeCheck_of_le {s : State} {start n : Nat} (h : start + n ≤ s.cfg.cbufSize) : rangeCheck s start n = none :=
  if_neg (Nat.not_lt.mpr h)

/-- A range that leaves CBUF is BufferRange (60_exceptions.md R215). -/
theorem rangeCheck_of_lt {s : State} {start n : Nat} (h : s.cfg.cbufSize < start + n) :
    rangeCheck s start n = some .bufferRange :=
  if_pos h

-- ---------------------------------------------------------------- SEND

/-- SEND's call on a range inside CBUF. -/
theorem exec_send_call {offset length : Word} {s : State} (hfresh : s.fresh)
    (hin : offset.toNat + length.toNat ≤ s.cfg.cbufSize) :
    exec (.send offset length) s = .next (s.makeCall (s.sendCommand (s.readCbufRange offset.toNat length.toNat))) :=
  runOperation_first_ok id (rangeCheck_of_le hin) (if_pos hfresh.calls_eq_zero)

/-- SEND completes after one call: the number of calls is then a successor, and the step computes. -/
theorem exec_send_complete (offset length : Word) (s : State) (c : BusCall) :
    exec (.send offset length) (s.makeCall c) = .next ((s.makeCall c).complete id) := rfl

/-- Settles O22: one call and the completion inside CBUF, the fault beyond it. -/
theorem sendTransmitsTheRangeAsItIs : Obligations.SendTransmitsTheRangeAsItIs := fun offset length s hfresh =>
  ⟨fun hin => ⟨_, _, exec_send_call hfresh hin, exec_send_complete offset length s _, hfresh.completesWith id [_]⟩,
    fun hout => runOperation_first_fault _ id hfresh.calls_eq_zero (rangeCheck_of_lt hout)⟩

-- ---------------------------------------------------------------- SENDTBL

/-- The call for row `k` of a table issued in `s`: its bytes are read after `k` calls, so with the draw counter moved on by
`k` (40_sequencer.md R103, log entry 5). -/
def tableRow (base : Word) (s : State) (k : Nat) : BusCall :=
  .write s.devAddr ((List.range s.cfg.tableRowBytes).map (fun j =>
    ({ s with seed := s.seed + k } : State).readCbuf (base.toNat + k * s.cfg.tableRowBytes + j))) false

/-- SENDTBL's range check says the same after a run of calls as before it. -/
theorem rangeCheck_makeCalls (s : State) (calls : List BusCall) (start rows : Nat) :
    rangeCheck (s.makeCalls calls) start (rows * (s.makeCalls calls).cfg.tableRowBytes) =
      rangeCheck s start (rows * s.cfg.tableRowBytes) := by
  simp [rangeCheck]

/-- After `k` rows of a table inside CBUF, while some are left, SENDTBL calls row `k`, whatever those before it were answered. -/
theorem exec_sendTbl_row {base rowCount : Word} {s : State} {calls : List BusCall} (hfresh : s.fresh)
    (hin : base.toNat + rowCount.toNat * s.cfg.tableRowBytes ≤ s.cfg.cbufSize) (hleft : calls.length < rowCount.toNat) :
    exec (.sendTbl base rowCount) (s.makeCalls calls) =
      .next ((s.makeCalls calls).makeCall (tableRow base s calls.length)) := by
  have hcall : sendTblCall base rowCount (s.makeCalls calls) calls.length = some (tableRow base s calls.length) := by
    simp [sendTblCall, hleft, State.sendCommand, State.readCbufRange, State.makeCalls_readCbuf, tableRow]
  have hcalls : (s.makeCalls calls).prog.calls = calls.length := by simp [hfresh.calls_eq_zero]
  exact runOperation_first_ok id ((rangeCheck_makeCalls ..).trans (rangeCheck_of_le hin)) (hcalls ▸ hcall)

/-- After its last row SENDTBL completes. -/
theorem exec_sendTbl_complete {base rowCount : Word} {s : State} {calls : List BusCall} (hfresh : s.fresh)
    (hin : base.toNat + rowCount.toNat * s.cfg.tableRowBytes ≤ s.cfg.cbufSize) (hall : calls.length = rowCount.toNat) :
    exec (.sendTbl base rowCount) (s.makeCalls calls) = .next ((s.makeCalls calls).complete id) :=
  runOperation_complete _ id (.inr ((rangeCheck_makeCalls ..).trans (rangeCheck_of_le hin)))
    (by simp [sendTblCall, hfresh.calls_eq_zero, hall])

/-- A table inside CBUF is issued to its end, one row a step and then the completion. -/
theorem execN_sendTbl {base rowCount : Word} {s : State} (hfresh : s.fresh)
    (hin : base.toNat + rowCount.toNat * s.cfg.tableRowBytes ≤ s.cfg.cbufSize) :
    execN (.sendTbl base rowCount) (rowCount.toNat + 1) s =
      .next ((s.makeCalls ((List.range rowCount.toNat).map (tableRow base s))).complete id) := by
  have hlen : ((List.range rowCount.toNat).map (tableRow base s)).length = rowCount.toNat := by simp
  have hrun := execN_makeCalls (fun k hk => ?_) (exec_sendTbl_complete hfresh hin hlen)
  · rwa [hlen] at hrun
  · have htake : (((List.range rowCount.toNat).map (tableRow base s)).take k).length = k := List.length_take_of_le hk.le
    rw [exec_sendTbl_row hfresh hin (by rwa [htake, ← hlen]), htake]
    simp

/-- Settles O23: the run of the rows from a fresh issue, the next row of a table under way, and the fault of the check. -/
theorem sendTableIssuesEveryRowInOrder : Obligations.SendTableIssuesEveryRowInOrder :=
  ⟨fun _ _ _ hfresh hin => ⟨_, execN_sendTbl hfresh hin, hfresh.completesWith id _⟩,
    fun _ _ _ hcalls hleft => ⟨_, _, runOperation_next_call _ id hcalls (if_pos hleft), rfl⟩,
    fun _ _ _ hfresh hout => runOperation_first_fault _ id hfresh.calls_eq_zero (rangeCheck_of_lt hout)⟩

-- ---------------------------------------------------------------- PROBE

/-- PROBE's opcode byte decodes exactly when A[31:7] and B are zero (30_encoding.md R73, R76). -/
theorem decodeFields_probe_iff (a b : Word) : decodeFields 0x03#8 a b = some (.probe a) ↔ a.toNat ≤ 127 ∧ b = 0#32 := by
  have hfields : decodeFields 0x03#8 a b = decodeOp false a b 3 := decodeFields_plainOpc 0x3#4 a b
  rw [hfields, decodeOp]
  simp [Nat.lt_succ_iff]

/-- PROBE's call. -/
theorem exec_probe_call (addr : Word) {s : State} (hfresh : s.fresh) :
    exec (.probe addr) s = .next (s.makeCall (.write (deviceOperand addr) [] false)) :=
  runOperation_first_ok probeResult rfl (if_pos hfresh.calls_eq_zero)

/-- PROBE completes after one call, RET by the sign of its answer; again the step computes. -/
theorem exec_probe_complete (addr : Word) (s : State) (c : BusCall) :
    exec (.probe addr) (s.makeCall c) = .next ((s.makeCall c).complete probeResult) := rfl

/-- Settles O24: the zero-length write, then the completion with the sign of its answer; the decoder limits the address. -/
theorem probeReportsTheSignOfTheAnswer : Obligations.ProbeReportsTheSignOfTheAnswer :=
  ⟨fun addr s hfresh => ⟨_, _, _, exec_probe_call addr hfresh, exec_probe_complete addr s _, rfl, rfl,
    hfresh.completesWith probeResult [_]⟩, decodeFields_probe_iff⟩

end Sys2Proof.Machine

/-! PROOFS of the statements on the PLL search (41_pll.md R125 to R141): divider, multiplier, best fraction, output frequency. -/

namespace Sys2Proof.Machine

-- ---------------------------------------------------------------- the fields of the search's record

@[simp] theorem pllSearch_x (finMax target mclock : Nat) : (pllSearch finMax target mclock).x = pllX finMax mclock := rfl

@[simp] theorem pllSearch_r (finMax target mclock : Nat) :
    (pllSearch finMax target mclock).r = pllR target (pllX finMax mclock) mclock := rfl

@[simp] theorem pllSearch_enabled (finMax target mclock : Nat) : (pllSearch finMax target mclock).enabled = true := rfl

/-- The remainder whose fraction the search approximates (41_pll.md R127). -/
def searchRem (finMax target mclock : Nat) : Int :=
  pllRem target (pllX finMax mclock) (pllR target (pllX finMax mclock) mclock) mclock

@[simp] theorem pllSearch_fractional (finMax target mclock : Nat) : (pllSearch finMax target mclock).fractional =
    ((bestFrac (searchRem finMax target mclock) mclock).1 != 0) := rfl

@[simp] theorem pllSearch_n (finMax target mclock : Nat) : (pllSearch finMax target mclock).n =
    BitVec.ofNat 16 (bestFrac (searchRem finMax target mclock) mclock).1 := rfl

@[simp] theorem pllSearch_m (finMax target mclock : Nat) : (pllSearch finMax target mclock).m =
    BitVec.ofNat 16 (bestFrac (searchRem finMax target mclock) mclock).2 := rfl

/-- The 16-bit fields hold BestFrac's result: it is below 2^13. -/
theorem pllSearch_n_m (finMax target : Nat) {mclock : Nat} (h : 0 < mclock) :
    ((pllSearch finMax target mclock).n.toNat, (pllSearch finMax target mclock).m.toNat) =
      bestFrac (searchRem finMax target mclock) mclock := by
  obtain ⟨-, hmax, hlt⟩ := bestFrac_mem (searchRem finMax target mclock) h
  unfold Config.mMax at hmax
  rw [pllSearch_n, pllSearch_m, BitVec.toNat_ofNat, BitVec.toNat_ofNat, Nat.mod_eq_of_lt (by omega),
    Nat.mod_eq_of_lt (by omega)]

-- ---------------------------------------------------------------- the input divider

/-- No smaller divider than x qualifies (41_pll.md R125). -/
theorem lt_of_lt_pllX {finMax mclock k : Nat} (hk : 1 ≤ k) (h : k < pllX finMax mclock) : k * finMax < mclock := by
  unfold pllX at h
  split_ifs at h
  · omega
  · obtain rfl : k = 1 := by omega
    omega
  · obtain rfl | rfl : k = 1 ∨ k = 2 := by omega
    all_goals omega
  · obtain rfl | rfl | rfl : k = 1 ∨ k = 2 ∨ k = 3 := by omega
    all_goals omega

/-- The divider x qualifies, or is 4 (41_pll.md R125). -/
theorem le_pllX_mul_or_eq_four (finMax mclock : Nat) : mclock ≤ pllX finMax mclock * finMax ∨ pllX finMax mclock = 4 := by
  unfold pllX
  split_ifs with h1 h2 h3
  · exact .inl h1
  · exact .inl h2
  · exact .inl h3
  · exact .inr rfl

/-- A master clock above 4 · FIN_MAX saturates the divider (41_pll.md R141). -/
theorem pllX_eq_four {finMax mclock : Nat} (h : 4 * finMax < mclock) : pllX finMax mclock = 4 := by
  refine (le_pllX_mul_or_eq_four finMax mclock).resolve_left fun hle => ?_
  have : pllX finMax mclock * finMax ≤ 4 * finMax := Nat.mul_le_mul_right _ (pllX_mem finMax mclock).2
  omega

theorem pllX_default : ∀ mclock ∈ Config.mclkSet, pllX 14000000 mclock = if mclock ≤ 14000000 then 1 else 2 := by decide

/-- Settles O28: the chain of tests finds the least divider that qualifies. -/
theorem inputDividerIsTheLeastThatQualifies : Obligations.InputDividerIsTheLeastThatQualifies :=
  ⟨rfl, fun _ => pllX_default, fun finMax _ mclock => ⟨fun _ => lt_of_lt_pllX, le_pllX_mul_or_eq_four finMax mclock,
    pllX_mem finMax mclock⟩⟩

-- ---------------------------------------------------------------- the multiplier and the remainder

/-- The integer quotient is the floor of the ratio (41_pll.md R126). -/
theorem floor_ratio (target x mclock : Nat) : ⌊(target : ℚ) * x / mclock⌋ = (target * x / mclock : Nat) := by
  rw [← Nat.cast_mul, Rat.floor_natCast_div_natCast]
  rfl

theorem pllR_eq_clamp (target x mclock : Nat) : (pllR target x mclock : ℤ) = clamp (target * x / mclock : Nat) 1 8 := by
  have := clamp_bounds (v := (target * x / mclock : Nat)) (a := 1) (b := 8) (by decide)
  unfold pllR
  omega

/-- The remainder over the master clock is the ratio less r (41_pll.md R127). -/
theorem pllRem_div (target x r : Nat) {mclock : Nat} (h : 0 < mclock) :
    (pllRem target x r mclock : ℚ) / mclock = target * x / mclock - r := by
  unfold pllRem
  push_cast
  field_simp

/-- Where the clamp does not act the remainder is that of the integer division. -/
theorem pllRem_pllR {target x mclock : Nat} (h1 : 1 ≤ target * x / mclock) (h8 : target * x / mclock ≤ 8) :
    pllRem target x (pllR target x mclock) mclock = (target * x % mclock : Nat) := by
  have hr : (pllR target x mclock : ℤ) = (target * x / mclock : Nat) :=
    (pllR_eq_clamp ..).trans (clamp_of_mem (by omega))
  have hdiv := Nat.div_add_mod' (target * x) mclock
  rw [Nat.cast_inj.mp hr, pllRem]
  omega

/-- Where the clamp does not act the remainder is in [0, mclock). -/
theorem pllRem_pllR_mem {target x mclock : Nat} (h : 0 < mclock) (h1 : 1 ≤ target * x / mclock)
    (h8 : target * x / mclock ≤ 8) :
    0 ≤ pllRem target x (pllR target x mclock) mclock ∧ pllRem target x (pllR target x mclock) mclock < mclock := by
  have := Nat.mod_lt (target * x) h
  rw [pllRem_pllR h1 h8]
  omega

theorem pllR_default : ∀ fam, ∀ mclock ∈ Config.mclkSet,
    3 ≤ pllR (familyTarget fam) (pllX Params.default.finMax mclock) mclock ∧
    pllR (familyTarget fam) (pllX Params.default.finMax mclock) mclock ≤ 6 := by
  intro fam
  cases fam <;> decide

/-- Settles O29: the integer division is the floor, and the remainder is what it leaves. -/
theorem multiplierIsTheClampedFloor : Obligations.MultiplierIsTheClampedFloor := by
  refine ⟨pllR_default, fun finMax target mclock h => ?_⟩
  simp only [pllSearch_x, pllSearch_r, floor_ratio]
  exact ⟨pllR_eq_clamp .., pllRem_div _ _ _ h, fun h1 h8 => pllRem_pllR_mem h (by omega) (by omega)⟩

-- ---------------------------------------------------------------- errors of fractions

/-- The exact error, in terms of the integer the scan compares. -/
theorem fracErr_eq_div (rem : ℤ) {den m : ℕ} (n : ℕ) (hd : 0 < den) (hm : 0 < m) :
    fracErr rem den n m = (fracError rem den n m : ℚ) / m / den := by
  have hfrac : (rem : ℚ) / den - (n : ℚ) / m = ((rem * m - n * den : ℤ) : ℚ) / m / den := by
    push_cast
    field_simp
  rw [fracErr, hfrac, fracError, Nat.cast_natAbs, Int.cast_abs, abs_div, abs_div, Nat.abs_cast, Nat.abs_cast]

theorem fracErr_lt_iff (rem : ℤ) {den n m n' m' : ℕ} (hd : 0 < den) (hm : 0 < m) (hm' : 0 < m') :
    fracErr rem den n m < fracErr rem den n' m' ↔ fracError rem den n m * m' < fracError rem den n' m' * m := by
  rw [fracErr_eq_div rem n hd hm, fracErr_eq_div rem n' hd hm', div_lt_div_iff_of_pos_right (by positivity),
    div_lt_div_iff₀ (by positivity) (by positivity)]
  norm_cast

theorem fracErr_eq_iff (rem : ℤ) {den n m n' m' : ℕ} (hd : 0 < den) (hm : 0 < m) (hm' : 0 < m') :
    fracErr rem den n m = fracErr rem den n' m' ↔ fracError rem den n m * m' = fracError rem den n' m' * m := by
  rw [fracErr_eq_div rem n hd hm, fracErr_eq_div rem n' hd hm', div_left_inj' (by positivity),
    div_eq_div_iff (by positivity) (by positivity)]
  norm_cast

/-- A fraction has no error exactly when it is the fraction searched for. -/
theorem fracErr_eq_zero_iff (rem : ℤ) {den n m : ℕ} (hd : 0 < den) (hm : 0 < m) :
    fracErr rem den n m = 0 ↔ rem * m = n * den := by
  rw [fracErr_eq_div rem n hd hm, fracError, ← sub_eq_zero (b := (n : ℤ) * den), ← Int.natAbs_eq_zero]
  simp only [div_eq_zero_iff, Nat.cast_eq_zero, hd.ne', hm.ne', or_false]

/-- The denominator of a fraction without error is a multiple of the one in lowest terms. -/
theorem lowestDen_dvd {rem : ℤ} {den n m : ℕ} (hrem : 0 ≤ rem) (hd : 0 < den) (h : rem * m = n * den) :
    den / Nat.gcd rem.toNat den ∣ m := by
  obtain ⟨a, rfl⟩ := Int.eq_ofNat_of_zero_le hrem
  have hcross : a * m = n * den := by exact_mod_cast h
  rw [Int.toNat_natCast]
  refine (Nat.coprime_div_gcd_div_gcd (Nat.gcd_pos_of_pos_right a hd)).symm.dvd_of_dvd_mul_left ?_
  rw [← Nat.mul_div_right_comm (Nat.gcd_dvd_left a den), hcross, Nat.mul_div_assoc n (Nat.gcd_dvd_right a den)]
  exact Nat.dvd_mul_left ..

-- ---------------------------------------------------------------- BestFrac

theorem bestFrac_candidate (rem : ℤ) {den : ℕ} (hd : 0 < den) : FracCandidate (bestFrac rem den).1 (bestFrac rem den).2 :=
  bestFrac_mem rem hd

/-- A fraction whose denominator in lowest terms fits is found exactly (41_pll.md R129). -/
theorem bestFrac_of_fits {rem : ℤ} {den : ℕ} (h0 : 0 ≤ rem) (h1 : rem < den)
    (hfits : den / Nat.gcd rem.toNat den ≤ Config.mMax) :
    bestFrac rem den = (rem.toNat / Nat.gcd rem.toNat den, den / Nat.gcd rem.toNat den) :=
  if_pos ⟨h0, h1, hfits⟩

theorem fracErr_bestFrac_of_fits {rem : ℤ} {den : ℕ} (hd : 0 < den) (h0 : 0 ≤ rem) (h1 : rem < den)
    (hfits : den / Nat.gcd rem.toNat den ≤ Config.mMax) : fracErr rem den (bestFrac rem den).1 (bestFrac rem den).2 = 0 := by
  rw [fracErr_eq_zero_iff rem hd (bestFrac_candidate rem hd).1, bestFrac_of_fits h0 h1 hfits]
  obtain ⟨a, rfl⟩ := Int.eq_ofNat_of_zero_le h0
  rw [Int.toNat_natCast]
  norm_cast
  rw [← Nat.mul_div_assoc a (Nat.gcd_dvd_right a den), Nat.mul_div_right_comm (Nat.gcd_dvd_left a den)]

/-- The fraction in lowest terms comes before every other candidate: one without error has a multiple of its denominator. -/
theorem bestFrac_before_of_fits {rem : ℤ} {den n m : ℕ} (hd : 0 < den) (h0 : 0 ≤ rem) (h1 : rem < den)
    (hfits : den / Nat.gcd rem.toNat den ≤ Config.mMax) (hc : FracCandidate n m) (hne : (n, m) ≠ bestFrac rem den) :
    FracBefore rem den (bestFrac rem den).1 (bestFrac rem den).2 n m := by
  obtain ⟨hm, -, -⟩ := hc
  have hzero := fracErr_bestFrac_of_fits hd h0 h1 hfits
  rcases (abs_nonneg _ : 0 ≤ fracErr rem den n m).lt_or_eq with hpos | heq
  · exact .inl (hzero ▸ hpos)
  · refine .inr ⟨hzero.trans heq, .inl ?_⟩
    have hcross := (fracErr_eq_zero_iff rem hd hm).mp heq.symm
    have hden : (bestFrac rem den).2 = den / Nat.gcd rem.toNat den := congrArg Prod.snd (bestFrac_of_fits h0 h1 hfits)
    have hle : (bestFrac rem den).2 ≤ m := hden ▸ Nat.le_of_dvd hm (lowestDen_dvd h0 hd hcross)
    refine hle.lt_of_ne fun heqm => hne ?_
    have hbest := (fracErr_eq_zero_iff rem hd (bestFrac_candidate rem hd).1).mp hzero
    have hnum : ((bestFrac rem den).1 : ℤ) * den = n * den := by rw [← hbest, heqm, hcross]
    have hn := Int.eq_of_mul_eq_mul_right (by omega) hnum
    exact Prod.ext (by exact_mod_cast hn.symm) heqm.symm

/-- What the scan finds comes before every other candidate. -/
theorem bestFracScan_before (rem : ℤ) {den n m : ℕ} (hd : 0 < den) (hc : FracCandidate n m)
    (hne : (n, m) ≠ bestFracScan rem den Config.mMax) :
    FracBefore rem den (bestFracScan rem den Config.mMax).1 (bestFracScan rem den Config.mMax).2 n m := by
  obtain ⟨hm, hmax, hn⟩ := hc
  obtain ⟨hpos, -, -⟩ := bestFracScan_mem rem den Config.mMax
  rw [FracBefore, fracErr_lt_iff rem hd hpos hm, fracErr_eq_iff rem hd hpos hm]
  obtain hlt | ⟨heq, hlt | ⟨heqm, hle⟩⟩ := bestFracScan_best rem hd Config.mMax m n hm hmax hn
  · exact .inl hlt
  · exact .inr ⟨heq, .inl hlt⟩
  · exact .inr ⟨heq, .inr ⟨heqm, hle.lt_of_ne fun heqn => hne (Prod.ext heqn.symm heqm.symm)⟩⟩

theorem bestFrac_before (rem : ℤ) {den n m : ℕ} (hd : 0 < den) (hc : FracCandidate n m) (hne : (n, m) ≠ bestFrac rem den) :
    FracBefore rem den (bestFrac rem den).1 (bestFrac rem den).2 n m := by
  by_cases hfits : 0 ≤ rem ∧ rem < den ∧ den / Nat.gcd rem.toNat den ≤ Config.mMax
  · obtain ⟨h0, h1, hfits⟩ := hfits
    exact bestFrac_before_of_fits hd h0 h1 hfits hc hne
  · have hscan : bestFrac rem den = bestFracScan rem den Config.mMax := if_neg hfits
    rw [hscan] at hne ⊢
    exact bestFracScan_before rem hd hc hne

/-- Settles O30: by the fraction in lowest terms when it fits, by the scan otherwise. -/
theorem bestFracIsTheLexicographicMinimum : Obligations.BestFracIsTheLexicographicMinimum := fun rem _ hd =>
  ⟨bestFrac_candidate rem hd, fun _ _ => bestFrac_before rem hd⟩

/-- Settles O31: each field's range, and BestFrac's result in the 16-bit fields. -/
theorem searchResultsAreInRange : Obligations.SearchResultsAreInRange := by
  intro finMax target mclock h
  have hnm := pllSearch_n_m finMax target h
  obtain ⟨hm, hmax, hlt⟩ :=
    bestFrac_mem (searchRem finMax target mclock) h
  obtain ⟨hx1, hx4⟩ := pllX_mem finMax mclock
  obtain ⟨hr1, hr8⟩ := pllR_mem target (pllX finMax mclock) mclock
  have hfrac := pllSearch_fractional finMax target mclock
  rw [← hnm] at hm hmax hlt hfrac
  exact ⟨hx1, hx4, hr1, hr8, hm, hmax, hlt, by rw [hfrac, bne_iff_ne], rfl, hnm⟩

-- ---------------------------------------------------------------- the control byte and the enable byte

/-- The control byte depends on r modulo 8, x − 1 and the mode alone (41_pll.md R132). -/
theorem pllControl_eq (p : PllParams) :
    pllControl p = pllControl ⟨p.x - 1 + 1, p.r % 8, 0#16, 0#16, p.fractional, true⟩ := by
  simp [pllControl]

theorem pllControl_fields_of_fin : ∀ (r : Fin 8) (x : Fin 4) (f : Bool),
    (pllControl ⟨x + 1, r, 0#16, 0#16, f, true⟩).extractLsb' 6 2 = 0#2 ∧
    (pllControl ⟨x + 1, r, 0#16, 0#16, f, true⟩).extractLsb' 3 3 = BitVec.ofNat 3 r ∧
    (pllControl ⟨x + 1, r, 0#16, 0#16, f, true⟩).extractLsb' 1 2 = BitVec.ofNat 2 x ∧
    (pllControl ⟨x + 1, r, 0#16, 0#16, f, true⟩).getLsbD 0 = f := by decide

/-- The fields of the control byte do not overlap (41_pll.md R132). -/
theorem pllControl_fields (p : PllParams) (hx1 : 1 ≤ p.x) (hx4 : p.x ≤ 4) :
    (pllControl p).extractLsb' 6 2 = 0#2 ∧ (pllControl p).extractLsb' 3 3 = BitVec.ofNat 3 (p.r % 8) ∧
    (pllControl p).extractLsb' 1 2 = BitVec.ofNat 2 (p.x - 1) ∧ (pllControl p).getLsbD 0 = p.fractional := by
  rw [pllControl_eq]
  exact pllControl_fields_of_fin ⟨p.r % 8, Nat.mod_lt _ (by decide)⟩ ⟨p.x - 1, by omega⟩ p.fractional

/-- Settles O32: field by field for every record, and by evaluation for the document's two bytes. -/
theorem controlAndEnableByteLayout : Obligations.ControlAndEnableByteLayout :=
  ⟨fun _ _ _ _ _ _ hx1 hx4 _ _ => pllControl_fields _ hx1 hx4,
    fun _ _ => ⟨by simp [pllControl], by simp [pllControl]⟩, fun _ => rfl, fun _ _ _ => rfl⟩

-- ---------------------------------------------------------------- the corners

/-- Below every candidate the error grows with the fraction. -/
theorem fracErr_of_neg {rem : ℤ} {den : ℕ} (hrem : rem < 0) (n m : ℕ) :
    fracErr rem den n m = (n : ℚ) / m - rem / den := by
  have hle : (rem : ℚ) / den ≤ 0 := div_nonpos_of_nonpos_of_nonneg (by exact_mod_cast hrem.le) (by positivity)
  have hn : 0 ≤ (n : ℚ) / m := by positivity
  rw [fracErr, abs_of_nonpos (by linarith), neg_sub]

/-- Above every candidate the error falls as the fraction grows. -/
theorem fracErr_of_den_le {rem : ℤ} {den n m : ℕ} (hd : 0 < den) (hrem : den ≤ rem) (hn : n < m) :
    fracErr rem den n m = (rem : ℚ) / den - n / m := by
  have hge : 1 ≤ (rem : ℚ) / den := (one_le_div (by positivity)).mpr (by exact_mod_cast hrem)
  have hlt : (n : ℚ) / m ≤ 1 := div_le_one_of_le₀ (by exact_mod_cast hn.le) (by positivity)
  rw [fracErr, abs_of_nonneg (by linarith)]

/-- A negative remainder gives the smallest fraction (41_pll.md R141 (a)). -/
theorem bestFrac_of_neg {rem : ℤ} {den : ℕ} (hd : 0 < den) (hrem : rem < 0) : bestFrac rem den = (0, 1) := by
  by_contra hne
  obtain ⟨hm, -, -⟩ := bestFrac_candidate rem hd
  have hnonneg : 0 ≤ ((bestFrac rem den).1 : ℚ) / (bestFrac rem den).2 := by positivity
  obtain hlt | ⟨-, hlt | ⟨-, hlt⟩⟩ := bestFrac_before rem hd (n := 0) (m := 1) ⟨by decide, by decide, by decide⟩ (Ne.symm hne)
  · rw [fracErr_of_neg hrem, fracErr_of_neg hrem, Nat.cast_zero, zero_div] at hlt
    linarith
  · omega
  · omega

/-- A remainder of at least one gives the largest fraction (41_pll.md R141 (b)). -/
theorem bestFrac_of_den_le {rem : ℤ} {den : ℕ} (hd : 0 < den) (hrem : den ≤ rem) : bestFrac rem den = (8190, 8191) := by
  by_contra hne
  obtain ⟨hm, hmax, hn⟩ := bestFrac_candidate rem hd
  unfold Config.mMax at hmax
  have hbefore := bestFrac_before rem hd (n := 8190) (m := 8191) ⟨by decide, by decide, by decide⟩ (Ne.symm hne)
  rw [FracBefore, fracErr_of_den_le hd hrem hn, fracErr_of_den_le hd hrem (by decide), sub_lt_sub_iff_left, sub_right_inj,
    div_lt_div_iff₀ (by positivity) (by positivity), div_eq_div_iff (by positivity) (by positivity)] at hbefore
  norm_cast at hbefore
  omega

/-- The four corners do not occur with the defaults (41_pll.md R141). -/
theorem defaults_avoid_corners : ∀ fam, ∀ mclock ∈ Config.mclkSet,
    mclock ≤ familyTarget fam * pllX Params.default.finMax mclock ∧
    familyTarget fam * pllX Params.default.finMax mclock < 9 * mclock ∧ mclock ≤ 4 * Params.default.finMax ∧
    mclock / Nat.gcd (searchRem Params.default.finMax (familyTarget fam) mclock).toNat mclock ≤ 8191 := by
  intro fam
  cases fam <;> decide

/-- A ratio below 1 clamps r up and leaves a negative remainder. -/
theorem pllR_of_ratio_lt_one {target x mclock : ℕ} (h : target * x < mclock) :
    pllR target x mclock = 1 ∧ pllRem target x (pllR target x mclock) mclock < 0 := by
  have hr : pllR target x mclock = 1 := by rw [pllR, Nat.div_eq_of_lt h]; rfl
  refine ⟨hr, ?_⟩
  rw [hr, pllRem]
  omega

/-- A ratio of at least 9 clamps r down and leaves a remainder of at least the master clock. -/
theorem pllR_of_nine_le_ratio {target x mclock : ℕ} (hmc : 0 < mclock) (h : 9 * mclock ≤ target * x) :
    pllR target x mclock = 8 ∧ mclock ≤ pllRem target x (pllR target x mclock) mclock := by
  have hq : 9 ≤ target * x / mclock := (Nat.le_div_iff_mul_le hmc).mpr h
  have hr : pllR target x mclock = 8 := by
    have := pllR_eq_clamp target x mclock
    rw [clamp, if_neg (by omega), if_pos (by omega)] at this
    omega
  refine ⟨hr, ?_⟩
  rw [hr, pllRem]
  omega

/-- Settles O35: a clamped multiplier leaves a remainder outside [0, mclock), whose best fraction is the end of C on that side; a
fraction without error has a multiple of the denominator in lowest terms. -/
theorem searchCornersAreDefined : Obligations.SearchCornersAreDefined := by
  refine ⟨fun finMax target mclock h => ?_, fun finMax target mclock hmc h => ?_, fun _ _ _ => pllX_eq_four,
    fun rem den hpos hlt hbig hzero => ?_, defaults_avoid_corners⟩
  · obtain ⟨hr, hrem⟩ := pllR_of_ratio_lt_one h
    have hbest : bestFrac (searchRem finMax target mclock) mclock = (0, 1) := bestFrac_of_neg (Nat.zero_lt_of_lt h) hrem
    exact ⟨hr, by simp [hbest], by simp [hbest]⟩
  · obtain ⟨hr, hrem⟩ := pllR_of_nine_le_ratio hmc h
    have hbest : bestFrac (searchRem finMax target mclock) mclock = (8190, 8191) := bestFrac_of_den_le hmc hrem
    obtain ⟨hx1, hx4⟩ := pllX_mem finMax mclock
    obtain ⟨-, hcontrol, -, -⟩ := pllControl_fields (pllSearch finMax target mclock) hx1 hx4
    have hr8 : (pllSearch finMax target mclock).r = 8 := hr
    exact ⟨hr, by simp [hbest], by simp [hbest], hcontrol.trans (by rw [hr8])⟩
  · have hd : 0 < den := by omega
    obtain ⟨hm, hmax, -⟩ := bestFrac_candidate rem hd
    have hdvd := lowestDen_dvd hpos.le hd ((fracErr_eq_zero_iff rem hd hm).mp hzero)
    exact absurd ((Nat.le_of_dvd hm hdvd).trans hmax) hbig.not_ge

-- ---------------------------------------------------------------- the output frequency

/-- `f_out` without the case split: in integer mode n is 0 (41_pll.md R130, R138). -/
theorem fOut_pllSearch (finMax target : Nat) {mclock : Nat} (h : 0 < mclock) :
    fOut mclock (pllSearch finMax target mclock) =
      (mclock : ℚ) / pllX finMax mclock * (pllR target (pllX finMax mclock) mclock +
        ((pllSearch finMax target mclock).n.toNat : ℚ) / (pllSearch finMax target mclock).m.toNat) := by
  have hnm := pllSearch_n_m finMax target h
  have hfrac := pllSearch_fractional finMax target mclock
  rw [← hnm] at hfrac
  rw [fOut, hfrac]
  split
  · rfl
  · next hn =>
    have hn0 : (pllSearch finMax target mclock).n.toNat = 0 := by simpa only [bne_iff_ne, ne_eq, not_not] using hn
    rw [hn0, Nat.cast_zero, zero_div, add_zero, pllSearch_x, pllSearch_r]

/-- Where the ratio is in [1, 9) and the denominator fits, `f_out` is the target exactly. -/
theorem fOut_pllSearch_eq_target {finMax target mclock : Nat} (hmc : 0 < mclock)
    (h1 : mclock ≤ target * pllX finMax mclock) (h9 : target * pllX finMax mclock < 9 * mclock)
    (hfits : mclock / Nat.gcd (searchRem finMax target mclock).toNat mclock ≤ 8191) :
    fOut mclock (pllSearch finMax target mclock) = target := by
  have hq1 : 1 ≤ target * pllX finMax mclock / mclock := (Nat.le_div_iff_mul_le hmc).mpr (by omega)
  have hq8 : target * pllX finMax mclock / mclock < 9 := (Nat.div_lt_iff_lt_mul hmc).mpr h9
  obtain ⟨hrem0, hremlt⟩ : 0 ≤ searchRem finMax target mclock ∧ searchRem finMax target mclock < mclock :=
    pllRem_pllR_mem hmc hq1 (by omega)
  have hexact := fracErr_bestFrac_of_fits hmc hrem0 hremlt hfits
  rw [← pllSearch_n_m finMax target hmc, fracErr, abs_eq_zero, searchRem, pllRem_div _ _ _ hmc, sub_eq_zero] at hexact
  have hx : (pllX finMax mclock : ℚ) ≠ 0 := Nat.cast_ne_zero.mpr (Nat.ne_of_gt (pllX_mem finMax mclock).1)
  rw [fOut_pllSearch finMax target hmc, ← hexact]
  field_simp
  ring

theorem mclkSet_pos : ∀ mclock ∈ Config.mclkSet, 0 < mclock := by decide

/-- With the default FIN_MAX every admitted pair meets its target exactly (41_pll.md R137). -/
theorem fOut_default {fam : Family} {mclock : Nat} (h : mclock ∈ Config.mclkSet) :
    fOut mclock (pllSearch Params.default.finMax (familyTarget fam) mclock) = familyTarget fam := by
  obtain ⟨h1, h9, -, hfits⟩ := defaults_avoid_corners fam mclock h
  exact fOut_pllSearch_eq_target (mclkSet_pos mclock h) h1 h9 hfits

/-- Settles O33: the rows are computed, and `f_out` is exact since no default reaches a corner of the search. -/
theorem searchResultsOfAllAdmittedPairs : Obligations.SearchResultsOfAllAdmittedPairs :=
  ⟨rfl, by decide, by decide, fun _ _ => fOut_default⟩

/-- Settles O34: the error is 0. -/
theorem outputFrequencyMeetsTheTolerance : Obligations.OutputFrequencyMeetsTheTolerance := by
  intro fam mclock h
  rw [fOut_default h]
  norm_num

end Sys2Proof.Machine

/-! PROOFS of the statements on CFGPLL's validation and its one transaction (41_pll.md R121 to R124, R134, R135). -/

namespace Sys2Proof.Machine

-- ---------------------------------------------------------------- the family of a sample rate

theorem familyOf_eq_f48_iff (fs : Nat) : familyOf fs = some .f48 ↔ fs ∈ Config.fsSet48 := by
  unfold familyOf
  split_ifs with h48 h441
  · simpa using h48
  · simpa using h48
  · simpa using h48

/-- The two families share no rate. -/
theorem not_mem_fsSet48_of_mem_fsSet441 : ∀ fs ∈ Config.fsSet441, fs ∉ Config.fsSet48 := by decide

theorem familyOf_eq_f441_iff (fs : Nat) : familyOf fs = some .f441 ↔ fs ∈ Config.fsSet441 := by
  have hdisjoint := not_mem_fsSet48_of_mem_fsSet441 fs
  unfold familyOf
  split_ifs with h48 h441
  · have hmem : fs ∈ Config.fsSet48 := by simpa using h48
    simpa using fun h => hdisjoint h hmem
  · simpa using h441
  · simpa using h441

theorem familyOf_eq_none {fs : Nat} (h : fs ∉ Config.fsSet48 ++ Config.fsSet441) : familyOf fs = none := by
  obtain ⟨h48, h441⟩ := not_or.mp (mt List.mem_append.mpr h)
  simp [familyOf, h48, h441]

-- ---------------------------------------------------------------- the validation

theorem pllCheck_of_family {fs mclock : Nat} {fam : Family} (hfam : familyOf fs = some fam) :
    pllCheck fs mclock = if mclock ∈ Config.mclkSet then none else some (wrongMclk fam) := by
  simp [pllCheck, hfam]

theorem pllCheck_of_no_family {fs mclock : Nat} (h : familyOf fs = none) : pllCheck fs mclock = some .badFs := by
  simp [pllCheck, h]

/-- CFGPLL with a rate of a family and a wrong master clock faults by the family. -/
theorem exec_cfgPll_wrongMclk {fs mclock : Word} {s : State} {fam : Family} (hfresh : s.fresh)
    (hfam : familyOf fs.toNat = some fam) (hmc : mclock.toNat ∉ Config.mclkSet) :
    exec (.cfgPll fs mclock) s = .next (s.raise (wrongMclk fam)) :=
  runOperation_first_fault _ id hfresh.calls_eq_zero ((pllCheck_of_family hfam).trans (if_neg hmc))

/-- Settles O25: the check looks at fs, then at mclock, and the first step raises what it finds. -/
theorem cfgPllValidatesFsThenMclock : Obligations.CfgPllValidatesFsThenMclock := by
  refine fun fs mclock s hfresh => ⟨fun hfs => ?_,
    fun hfs => exec_cfgPll_wrongMclk (fam := .f48) hfresh ((familyOf_eq_f48_iff _).mpr hfs),
    fun hfs => exec_cfgPll_wrongMclk (fam := .f441) hfresh ((familyOf_eq_f441_iff _).mpr hfs)⟩
  exact runOperation_first_fault _ id hfresh.calls_eq_zero (pllCheck_of_no_family (familyOf_eq_none hfs))

-- ---------------------------------------------------------------- the family alone

/-- CFGPLL looks at fs through its family only. -/
theorem exec_cfgPll_congr {fs fs' : Word} (mclock : Word) (s : State) (h : familyOf fs.toNat = familyOf fs'.toNat) :
    exec (.cfgPll fs mclock) s = exec (.cfgPll fs' mclock) s := by
  have hcheck : pllCheck fs.toNat mclock.toNat = pllCheck fs'.toNat mclock.toNat := by rw [pllCheck, pllCheck, h]
  have hcall : cfgPllCall fs mclock s = cfgPllCall fs' mclock s := by
    funext k
    rw [cfgPllCall, cfgPllCall, h]
  rw [exec_cfgPll, exec_cfgPll, hcheck, hcall]

/-- Settles O26: the family decides the target, the check and the call. -/
theorem familyAloneSelectsTheTarget : Obligations.FamilyAloneSelectsTheTarget :=
  ⟨familyOf_eq_f48_iff, familyOf_eq_f441_iff, rfl, rfl, fun _ _ mclock s h _ => exec_cfgPll_congr mclock s h⟩

-- ---------------------------------------------------------------- the one transaction

/-- The write of the PLL block that CFGPLL makes for a family (41_pll.md R134). -/
def pllWrite (fam : Family) (mclock : Word) (s : State) : BusCall :=
  s.memWrite s.cfg.pllAddr (pllBlock (pllSearch s.cfg.finMax (familyTarget fam) mclock.toNat))

theorem exec_cfgPll_call {fs mclock : Word} {s : State} {fam : Family} (hfresh : s.fresh)
    (hfam : familyOf fs.toNat = some fam) (hmc : mclock.toNat ∈ Config.mclkSet) :
    exec (.cfgPll fs mclock) s = .next (s.makeCall (pllWrite fam mclock s)) :=
  runOperation_first_ok id ((pllCheck_of_family hfam).trans (if_pos hmc))
    (by simp [cfgPllCall, hfresh.calls_eq_zero, hfam, pllWrite])

/-- CFGPLL completes after one call. -/
theorem exec_cfgPll_complete (fs mclock : Word) (s : State) (c : BusCall) :
    exec (.cfgPll fs mclock) (s.makeCall c) = .next ((s.makeCall c).complete id) := rfl

/-- Settles O27: one call and the completion; the block's bytes are the eight of the rule. -/
theorem cfgPllEmitsOneEightByteBlock : Obligations.CfgPllEmitsOneEightByteBlock :=
  ⟨rfl, fun fs mclock s fam hfresh hfam hmc => ⟨_, _, exec_cfgPll_call hfresh hfam hmc, exec_cfgPll_complete fs mclock s _,
    hfresh.completesWith id [pllWrite fam mclock s]⟩⟩

end Sys2Proof.Machine

/-! PROOFS of the statements on the Lock Poller (41_pll.md R145 to R148). -/

namespace Sys2Proof.Machine

-- ---------------------------------------------------------------- one cycle

/-- WAITLOCK's address write (41_pll.md R145). -/
def State.addressWritten (s : State) : State := s.makeCall (s.memReadAddress s.cfg.pllStatusAddr)

/-- The state after a whole cycle: the address write and the read. -/
def State.polled (s : State) : State := s.addressWritten.makeCall (s.memReadData 6)

@[simp] theorem State.polled_calls (s : State) : s.polled.prog.calls = s.prog.calls + 2 := rfl

/-- A cycle from a state between two cycles: two steps (41_pll.md R145). -/
theorem waitLock_cycle {s : State} (heven : s.prog.calls % 2 = 0) (hlock : s.prog.calls = 0 ∨ s.prog.locked = false) :
    exec .waitLock s = .next s.addressWritten ∧ exec .waitLock s.addressWritten = .next s.polled :=
  ⟨waitLock_write heven hlock, waitLock_read (by show (s.prog.calls + 1) % 2 = 1; omega)⟩

/-- What a cycle records: the read's event, whose return value and lock bit the engine holds. -/
theorem State.polled_eq (s : State) : ∃ r buf, buf.length = 6 ∧
    s.polled.hist = s.addressWritten.hist ++ [.read s.devAddr 6 false r buf] ∧
    s.polled.prog = ⟨s.prog.calls + 2, r, lockSeen buf⟩ := by
  obtain ⟨r, buf, hanswer, hlen⟩ := answer_memReadData s.addressWritten s
  refine ⟨r, buf, hlen, ?_, ?_⟩
  · rw [State.polled, State.makeCall_hist, hanswer]
  · rw [State.polled, State.makeCall_prog, hanswer]
    rfl

/-- A single read step with the answer written out. -/
theorem waitLock_read_answered {s : State} (hodd : s.prog.calls % 2 = 1) : ∃ r buf, buf.length = 6 ∧
    exec .waitLock s = .next { s with
      hist := s.hist ++ [.read s.devAddr 6 false r buf]
      seed := s.seed + 1
      prog := ⟨s.prog.calls + 1, r, lockSeen buf⟩ } := by
  obtain ⟨r, buf, hanswer, hlen⟩ := answer_memReadData s s
  refine ⟨r, buf, hlen, ?_⟩
  rw [waitLock_read hodd, State.makeCall, hanswer]
  rfl

/-- Settles O36: a cycle is two steps, and the lock bit it leaves decides the step after it. -/
theorem waitLockWritesThenReadsUntilLock : Obligations.WaitLockWritesThenReadsUntilLock := by
  refine ⟨fun s hfresh => ?_, fun s hodd => ?_, fun s heven h0 hlock => ?_, fun s heven h0 hlock => ?_⟩
  · obtain ⟨hwrite, hread⟩ := waitLock_cycle (s := s) (by simp [hfresh.calls_eq_zero]) (.inl hfresh.calls_eq_zero)
    obtain ⟨r2, buf, hlen, hhist, hprog⟩ := s.polled_eq
    have heven : s.polled.prog.calls % 2 = 0 := by simp [hfresh.calls_eq_zero]
    have hbit := lockSeen_of_length hlen
    cases hlock : lockSeen buf with
    | true =>
      have hdone := waitLock_complete heven (by simp) (by rw [hprog, hlock])
      refine ⟨_, _, _, _, r2, buf, hwrite, hread, hdone, rfl, hhist, hlen, .inl ⟨hbit.trans (by rw [hlock]), ?_, ?_⟩⟩
      · simp [hprog]
      · exact hfresh.completesWith id [_, _]
    | false =>
      have hnext := waitLock_write heven (.inr (by rw [hprog, hlock]))
      exact ⟨_, _, _, _, r2, buf, hwrite, hread, hnext, rfl, hhist, hlen,
        .inr ⟨hbit.trans (by rw [hlock]), rfl, rfl, rfl, _, rfl⟩⟩
  · obtain ⟨r, buf, hlen, hread⟩ := waitLock_read_answered hodd
    exact ⟨_, r, buf, hread, rfl, hlen, lockSeen_of_length hlen, rfl, rfl, rfl, rfl, rfl⟩
  · exact ⟨_, waitLock_complete heven h0 hlock, by simp [h0], rfl, s.complete_run id, rfl⟩
  · exact ⟨_, _, waitLock_write heven (.inr hlock), rfl, rfl, rfl, rfl, rfl⟩

-- ---------------------------------------------------------------- the lock test

/-- Bit 1 of a byte is its bit of value 0x02. -/
theorem getLsbD_one_iff_and_two : ∀ b : Byte, b.getLsbD 1 = true ↔ b &&& 0x02#8 = 0x02#8 := by decide

theorem lockSeen_iff_and (buf : List Byte) : lockSeen buf = true ↔ buf[5]?.map (fun b => b &&& 0x02#8) = some 0x02#8 := by
  simp only [lockSeen_iff, Option.map_eq_some_iff, getLsbD_one_iff_and_two]

/-- The events a call adds to H are that call alone, whatever H was. -/
theorem calls_of_makeCall (s : State) (c : BusCall) : ((s.makeCall c).hist.drop s.hist.length).map eventCall = [c] := by
  simp

/-- Settles O37: no call of WAITLOCK is chosen by H. -/
theorem lockTestReadsOneBit : Obligations.LockTestReadsOneBit := by
  refine ⟨rfl, lockSeen_iff_and, fun s hodd => ?_, fun s h t hstep => ?_⟩
  · obtain ⟨r, buf, -, hread⟩ := waitLock_read_answered hodd
    exact ⟨r, buf, hread⟩
  · rw [exec_waitLock] at hstep
    obtain ⟨f, -, hcheck, -⟩ | ⟨c, hcall, rfl⟩ | ⟨hcall, rfl⟩ := runOperation_cases hstep
    · cases hcheck
    · exact ⟨({ s with hist := h } : State).makeCall c, runOperation_first_ok id rfl hcall, rfl, rfl, rfl, rfl,
        (calls_of_makeCall { s with hist := h } c).trans (calls_of_makeCall s c).symm⟩
    · exact ⟨({ s with hist := h } : State).complete id, runOperation_complete none id (.inr rfl) hcall, rfl, rfl, rfl, rfl,
        by simp⟩

-- ---------------------------------------------------------------- the unbounded poll

/-- `n` cycles more begin with one. -/
theorem execN_waitLock_cycle {s : State} (n : Nat) (heven : s.prog.calls % 2 = 0)
    (hlock : s.prog.calls = 0 ∨ s.prog.locked = false) :
    execN .waitLock (2 * (n + 1)) s = execN .waitLock (2 * n) s.polled := by
  obtain ⟨hwrite, hread⟩ := waitLock_cycle heven hlock
  rw [Nat.mul_add, execN, hwrite]
  show execN .waitLock (2 * n + 1) s.addressWritten = _
  rw [execN, hread]

/-- `n` cycles of a poll from `s` end without the lock in `t`. -/
def Unlocked (n : Nat) (s t : State) : Prop :=
  execN .waitLock (2 * n) s = .next t ∧ t.status = s.status ∧ t.ret = s.ret ∧ t.cp = s.cp ∧
    t.hist.length = s.hist.length + 2 * n ∧ s.hist <+: t.hist ∧ t.prog.calls = s.prog.calls + 2 * n

/-- Within the `n` cycles of a poll from `s` one cycle ends in a read that shows the lock bit. -/
def LockedWithin (n : Nat) (s : State) : Prop :=
  ∃ k t r buf, 1 ≤ k ∧ k ≤ n ∧ execN .waitLock (2 * k) s = .next t ∧
    t.hist.getLast? = some (.read s.devAddr 6 false r buf) ∧ buf[5]?.map (fun b => b.getLsbD 1) = some true

/-- A cycle without the lock makes a poll from its end one of one cycle more from its start. -/
theorem Unlocked.of_polled {n : Nat} {s t : State} (h : Unlocked n s.polled t)
    (hcycle : execN .waitLock (2 * (n + 1)) s = execN .waitLock (2 * n) s.polled) : Unlocked (n + 1) s t := by
  obtain ⟨hrun, hstatus, hret, hcp, hlen, hgrow, hcalls⟩ := h
  have hpolled : s.polled.hist.length = s.hist.length + 2 := by simp [State.polled, State.addressWritten]
  have hfirst : s.hist <+: s.polled.hist := by simp [State.polled, State.addressWritten]
  exact ⟨hcycle.trans hrun, hstatus, hret, hcp, by omega, hfirst.trans hgrow, by simp at hcalls; omega⟩

theorem LockedWithin.of_polled {n : Nat} {s : State} (h : LockedWithin n s.polled)
    (hcycle : ∀ k, execN .waitLock (2 * (k + 1)) s = execN .waitLock (2 * k) s.polled) : LockedWithin (n + 1) s := by
  obtain ⟨k, t, r, buf, -, hkn, hrun, hlast, hbit⟩ := h
  exact ⟨k + 1, t, r, buf, by omega, by omega, (hcycle k).trans hrun, hlast, hbit⟩

/-- A poll sees the lock or goes on, cycle by cycle (41_pll.md R148). -/
theorem lockedWithin_or_unlocked (n : Nat) {s : State} (heven : s.prog.calls % 2 = 0)
    (hlock : s.prog.calls = 0 ∨ s.prog.locked = false) : LockedWithin n s ∨ ∃ t, Unlocked n s t := by
  induction n generalizing s with
  | zero => exact .inr ⟨s, rfl, rfl, rfl, rfl, rfl, ⟨[], List.append_nil _⟩, rfl⟩
  | succ n ih =>
    have hcycle (k : Nat) := execN_waitLock_cycle k heven hlock
    obtain ⟨r, buf, hlen, hhist, hprog⟩ := s.polled_eq
    cases hseen : lockSeen buf with
    | true =>
      exact .inl ⟨1, s.polled, r, buf, le_rfl, by omega, hcycle 0, by simp [hhist], (lockSeen_iff buf).mp hseen⟩
    | false =>
      obtain hlocked | ⟨t, hunlocked⟩ := ih (s := s.polled) (by simp [heven]) (.inr (by rw [hprog, hseen]))
      · exact .inl (hlocked.of_polled hcycle)
      · exact .inr ⟨t, hunlocked.of_polled (hcycle n)⟩

/-- Until a cycle has ended in the lock, WAITLOCK's step is a call. -/
theorem waitLock_call {s : State} (h : s.prog.calls = 0 ∨ s.prog.calls % 2 = 1 ∨ s.prog.locked = false) :
    ∃ c, exec .waitLock s = .next (s.makeCall c) := by
  rcases Nat.mod_two_eq_zero_or_one s.prog.calls with heven | hodd
  · exact ⟨_, waitLock_write heven (h.imp_right fun h => h.resolve_left (by omega))⟩
  · exact ⟨_, waitLock_read hodd⟩

/-- A call leaves the engine BUSY, so only the host's reset ends a poll that has seen no lock. -/
theorem step_waitLock_unlocked {s t : State} (hrun : s.run = .busy)
    (hdecode : decodeFields s.opc s.opa s.opb = some .waitLock)
    (hlock : s.prog.calls = 0 ∨ s.prog.calls % 2 = 1 ∨ s.prog.locked = false) (hstep : step s = .next t) :
    t.run = .busy ∨ ∃ strap rest, s.script = .reset strap :: rest := by
  by_cases hreset : ∃ strap rest, s.script = .reset strap :: rest
  · exact .inr hreset
  · left
    obtain ⟨s0, hs0, hengine⟩ := step_of_busy (by simpa using hreset) hrun
    have hexec : engineStep s0 = exec .waitLock s0 := by rcases hs0 with rfl | rfl <;> simp [engineStep, hrun, hdecode]
    obtain ⟨c, hcall⟩ : ∃ c, exec .waitLock s0 = .next (s0.makeCall c) := by
      rcases hs0 with rfl | rfl <;> exact waitLock_call hlock
    obtain rfl := Host.Outcome.next.inj (hstep.symm.trans (hengine.trans (hexec.trans hcall)))
    rcases hs0 with rfl | rfl <;> exact hrun

/-- Settles O39: by induction on the number of cycles, and by the calls a poll without the lock makes. -/
theorem waitLockPollsWithoutBound : Obligations.WaitLockPollsWithoutBound :=
  ⟨fun n _ heven hlock => lockedWithin_or_unlocked n heven hlock, fun _ _ => step_waitLock_unlocked⟩

end Sys2Proof.Machine

/-! PROOFS of the statements on the Gain Quantizers (42_gain.md): the codes, the operands examined, the bytes, the two writes. -/

namespace Sys2Proof.Machine

-- ---------------------------------------------------------------- counting the thresholds at or below a gain

/-- How many of the first `n` naturals lie below `v`. -/
theorem countP_range_lt (v : ℤ) (n : ℕ) :
    ((List.range n).countP (fun k : ℕ => decide ((k : ℤ) < v)) : ℤ) = clamp v 0 n := by
  induction n with
  | zero =>
    show 0 = clamp v 0 0
    unfold clamp
    split_ifs <;> omega
  | succ n ih =>
    have hlast : ([n].countP (fun k : ℕ => decide ((k : ℤ) < v)) : ℤ) = if (n : ℤ) < v then 1 else 0 := by simp
    rw [List.range_succ, List.countP_append, Nat.cast_add, ih, hlast]
    unfold clamp
    split_ifs <;> omega

theorem clamp_add (v a b c : ℤ) : clamp (v + c) (a + c) (b + c) = clamp v a b + c := by
  unfold clamp
  split_ifs <;> omega

theorem clamp_of_lt {v a b : ℤ} (h : v < a) : clamp v a b = a := if_pos h

theorem clamp_of_ge {v a b : ℤ} (hab : a ≤ b) (h : b ≤ v) : clamp v a b = b := by
  unfold clamp
  split_ifs <;> omega

/-- The comparator form on `n` rising thresholds is a clamp of `v`, when threshold `k` is reached exactly when `k < v`
(42_gain.md R165). -/
theorem countP_f32AtLeast {p : Word} {t : ℕ → ℤ} {v : ℤ} (n : ℕ) (hp : f32Finite p)
    (ht : ∀ k, (t k : ℚ) ≤ f32Real p ↔ (k : ℤ) < v) :
    (((List.range n).map t).countP (fun x => f32AtLeast p x) : ℤ) = clamp v 0 n := by
  have hpoint : (fun x => f32AtLeast p x) ∘ t = fun k : ℕ => decide ((k : ℤ) < v) := by
    funext k
    exact Bool.eq_iff_iff.mpr (by rw [Function.comp_apply, f32AtLeast_iff hp, ht, decide_eq_true_iff])
  rw [List.countP_map, hpoint, countP_range_lt]

-- ---------------------------------------------------------------- InCode

theorem inThresholds_eq_map : inThresholds = (List.range 6).map (fun k : ℕ => 3 * (k : ℤ) - 9) := rfl

/-- InCode counts one for each threshold of the input schemes that the gain reaches, on top of 1. -/
theorem inCodeExact_eq_clamp {p : Word} (hp : f32Finite p) :
    (inCodeExact p : ℤ) = clamp (⌊(f32Real p + 12) / 3⌋ + 1) 1 7 := by
  have hreach (k : ℕ) : ((3 * (k : ℤ) - 9 : ℤ) : ℚ) ≤ f32Real p ↔ (k : ℤ) < ⌊(f32Real p + 12) / 3⌋ := by
    rw [← Int.add_one_le_iff, Int.le_floor, le_div_iff₀ (by norm_num)]
    push_cast
    constructor <;> intro h <;> linarith
  have hcount := countP_f32AtLeast 6 hp hreach
  calc (inCodeExact p : ℤ) = clamp ⌊(f32Real p + 12) / 3⌋ 0 6 + 1 := by
        rw [inCodeExact, inThresholds_eq_map, Nat.cast_add, hcount, Nat.cast_one, add_comm]; rfl
    _ = clamp (⌊(f32Real p + 12) / 3⌋ + 1) 1 7 := (clamp_add _ 0 6 1).symm

/-- Settles O40: the comparators count to the clamped floor, and outside the two ends the clamp acts. -/
theorem inputCodeIsTheClampedFloor : Obligations.InputCodeIsTheClampedFloor := by
  intro p hp
  have hcode := inCodeExact_eq_clamp hp
  refine ⟨hcode, fun hlow => ?_, fun hhigh => ?_⟩
  · have hfloor : ⌊(f32Real p + 12) / 3⌋ < 0 := Int.floor_lt.mpr (by push_cast; linarith)
    rw [clamp_of_lt (by omega)] at hcode
    exact_mod_cast hcode
  · have hfloor : 6 ≤ ⌊(f32Real p + 12) / 3⌋ := Int.le_floor.mpr (by push_cast; linarith)
    rw [clamp_of_ge (by decide) (by omega)] at hcode
    exact_mod_cast hcode

-- ---------------------------------------------------------------- OutCode

theorem outThresholds_eq_map : outThresholds = (List.range 63).map (fun k : ℕ => (k : ℤ) - 56) := rfl

/-- OutCode counts one for each threshold of the output schemes that the gain reaches. -/
theorem outCodeExact_eq_clamp {p : Word} (hp : f32Finite p) : (outCodeExact p : ℤ) = clamp ⌊f32Real p + 57⌋ 0 63 := by
  rw [outCodeExact, outThresholds_eq_map]
  refine countP_f32AtLeast 63 hp fun k => ?_
  rw [← Int.add_one_le_iff, Int.le_floor]
  push_cast
  constructor <;> intro h <;> linarith

/-- Settles O41: the comparators count to the clamped floor, and outside the two ends the clamp acts. -/
theorem outputCodeIsTheClampedFloor : Obligations.OutputCodeIsTheClampedFloor := by
  intro p hp
  have hcode := outCodeExact_eq_clamp hp
  refine ⟨hcode, fun hlow => ?_, fun hhigh => ?_⟩
  · rw [clamp_of_lt (Int.floor_lt.mpr (by push_cast; linarith))] at hcode
    exact_mod_cast hcode
  · rw [clamp_of_ge (by decide) (Int.le_floor.mpr (by push_cast; linarith))] at hcode
    exact_mod_cast hcode

-- ---------------------------------------------------------------- infinities and zeros

/-- An infinity has the codes of the comparators in both evaluation modes (42_gain.md R167). -/
theorem inCode_of_not_finite {p : Word} (mode : GainEval) (h : f32Exponent p = 255) : inCode mode p = inCodeExact p := by
  cases mode with
  | exactReal => rfl
  | binary32 => exact if_pos h

theorem outCode_of_not_finite {p : Word} (mode : GainEval) (h : f32Exponent p = 255) : outCode mode p = outCodeExact p := by
  cases mode with
  | exactReal => rfl
  | binary32 => exact if_pos h

/-- +infinity reaches every threshold. -/
theorem f32AtLeast_posInf (t : ℤ) : f32AtLeast 0x7F800000#32 t = true := rfl

/-- −infinity reaches none. -/
theorem f32AtLeast_negInf (t : ℤ) : f32AtLeast 0xFF800000#32 t = false := rfl

/-- A quotient that is a whole number of dB is a binary32 value, so rounding leaves it as it is. -/
theorem rne32_whole_mul {t : ℤ} {den : ℕ} (hd : 0 < den) (ht : t.natAbs < 2 ^ 24) :
    rne32 (t * f32One * den) den = t * f32One :=
  le_antisymm (rne32_le hd ht le_rfl) (le_rne32 hd ht le_rfl)

/-- A whole number of dB is a binary32 value. -/
theorem rne32_whole {t : ℤ} (ht : t.natAbs < 2 ^ 24) : rne32 (t * f32One) 1 = t * f32One := by
  simpa using rne32_whole_mul (den := 1) (by decide) ht

theorem f32Real_of_scaled_zero {p : Word} (h : f32Scaled p = 0) : f32Real p = 0 := by
  have hreal := f32Scaled_eq_real p
  simpa [h] using hreal

/-- A gain of 0 dB has input code 5 in both evaluation modes: (0 + 12) / 3 is exact in binary32 too. -/
theorem inCode_of_scaled_zero {p : Word} (mode : GainEval) (hp : f32Finite p) (h : f32Scaled p = 0) : inCode mode p = 5 := by
  cases mode with
  | exactReal =>
    have hcode := inCodeExact_eq_clamp hp
    rw [f32Real_of_scaled_zero h] at hcode
    norm_num [clamp] at hcode
    exact_mod_cast hcode
  | binary32 =>
    have hsum : rne32 (12 * f32One) 1 = 4 * f32One * (3 : ℕ) := (rne32_whole (by decide)).trans (by push_cast; ring)
    have hthird := rne32_whole_mul (t := 4) (den := 3) (by decide) (by decide)
    show inCodeF32 p = 5
    rw [inCodeF32, if_neg hp, h, zero_add, hsum, hthird, Int.mul_ediv_cancel _ (by decide)]
    rfl

/-- A gain of 0 dB has output code 57 in both evaluation modes: 0 + 57 is exact in binary32 too. -/
theorem outCode_of_scaled_zero {p : Word} (mode : GainEval) (hp : f32Finite p) (h : f32Scaled p = 0) : outCode mode p = 57 := by
  cases mode with
  | exactReal =>
    have hcode := outCodeExact_eq_clamp hp
    rw [f32Real_of_scaled_zero h] at hcode
    norm_num [clamp] at hcode
    exact_mod_cast hcode
  | binary32 =>
    show outCodeF32 p = 57
    rw [outCodeF32, if_neg hp, h, zero_add, rne32_whole (by decide), Int.mul_ediv_cancel _ (by decide)]
    rfl

-- ---------------------------------------------------------------- NaN

theorem f32IsNaN_iff (p : Word) : f32IsNaN p = true ↔ p.extractLsb' 23 8 = 0xFF#8 ∧ p.extractLsb' 0 23 ≠ 0#23 := by
  simp [f32IsNaN, f32Exponent, f32Fraction, ← BitVec.toNat_inj]

theorem nanCheck_eq_badGain {l r : Word} (h : (f32IsNaN l || f32IsNaN r) = true) : nanCheck l r = some .badGain := if_pos h

theorem nanCheck_eq_none {l r : Word} (h : (f32IsNaN l || f32IsNaN r) = false) : nanCheck l r = none := by
  simp [nanCheck, h]

/-- Muted, or without a NaN, the input schemes do not fault. -/
theorem inputCheck_eq_none {l r : Word} {m : Bool} (h : m = true ∨ (f32IsNaN l || f32IsNaN r) = false) :
    inputCheck l r m = none := by
  cases m with
  | true => rfl
  | false => exact nanCheck_eq_none (h.resolve_left (by decide))

/-- A NaN in an operand it examines is BadGain in the first step of an operation. -/
theorem runOperation_nan {l r : Word} {s : State} (call : ℕ → Option BusCall) (hfresh : s.fresh)
    (hnan : (f32IsNaN l || f32IsNaN r) = true) : runOperation (nanCheck l r) call id s = .next (s.raise .badGain) :=
  runOperation_first_fault call id hfresh.calls_eq_zero (nanCheck_eq_badGain hnan)

/-- Settles O44: the infinities by the comparators, the zeros by the clamped floor and an exact sum, NaN by the check. -/
theorem specialGainOperands : Obligations.SpecialGainOperands := by
  refine ⟨fun mode => ⟨?_, ?_, ?_, ?_, ?_, ?_, ?_, ?_⟩, fun p t hp => f32AtLeast_iff hp t, f32IsNaN_iff,
    fun l r m s hfresh h => ?_⟩
  · rw [inCode_of_not_finite mode rfl]; simp [inCodeExact, inThresholds, f32AtLeast_posInf]
  · rw [outCode_of_not_finite mode rfl]; simp [outCodeExact, outThresholds, f32AtLeast_posInf]
  · rw [inCode_of_not_finite mode rfl]; simp [inCodeExact, f32AtLeast_negInf]
  · rw [outCode_of_not_finite mode rfl]; simp [outCodeExact, f32AtLeast_negInf]
  · exact inCode_of_scaled_zero mode (by decide : _ ≠ _) rfl
  · exact outCode_of_scaled_zero mode (by decide : _ ≠ _) rfl
  · exact inCode_of_scaled_zero mode (by decide : _ ≠ _) rfl
  · exact outCode_of_scaled_zero mode (by decide : _ ≠ _) rfl
  · have hnan : (f32IsNaN l || f32IsNaN r) = true := Bool.or_eq_true_iff.mpr h
    exact ⟨runOperation_nan _ hfresh hnan, runOperation_nan _ hfresh hnan, runOperation_nan _ hfresh hnan,
      runOperation_nan _ hfresh hnan⟩

-- ---------------------------------------------------------------- mute

theorem inCodeExact_mem (p : Word) : 1 ≤ inCodeExact p ∧ inCodeExact p ≤ 7 :=
  ⟨Nat.le_add_right .., Nat.add_le_add_left List.countP_le_length 1⟩

/-- An input code is 1 to 7 for every pattern, in both evaluation modes (42_gain.md R161). -/
theorem inCode_mem (mode : GainEval) (p : Word) : 1 ≤ inCode mode p ∧ inCode mode p ≤ 7 := by
  cases mode with
  | exactReal => exact inCodeExact_mem p
  | binary32 =>
    by_cases hp : f32Exponent p = 255
    · exact inCode_of_not_finite .binary32 hp ▸ inCodeExact_mem p
    · show 1 ≤ inCodeF32 p ∧ inCodeF32 p ≤ 7
      rw [inCodeF32, if_neg hp]
      generalize rne32 (rne32 (f32Scaled p + 12 * f32One) 1) 3 / f32One + 1 = v
      have hbounds := clamp_bounds (v := v) (a := 1) (b := 7) (by decide)
      omega

/-- An unmuted input code is not the code of mute (42_gain.md R162). -/
theorem inputCode_unmuted_ne_zero (s : State) (p : Word) : inputCode s false p ≠ 0#8 := by
  obtain ⟨hlow, hhigh⟩ := inCode_mem s.cfg.gainEval p
  intro h
  have hzero : inCode s.cfg.gainEval p % 256 = 0 := congrArg BitVec.toNat h
  omega

/-- Settles O45: with mute neither the check nor the code mentions an operand. -/
theorem mutedInputIgnoresItsOperands : Obligations.MutedInputIgnoresItsOperands := fun l _ s =>
  ⟨rfl, rfl, rfl, inputCode_unmuted_ne_zero s l⟩

-- ---------------------------------------------------------------- the bytes

/-- A code shifted left by `k` stands above flags of `k` bits: from bit `k` on the byte holds the code. -/
theorem extractLsb'_shiftLeft_or {f : Byte} {k j n : ℕ} (c : Byte) (hf : f.toNat < 2 ^ k) (hn : k + j + n ≤ 8) :
    ((c <<< k) ||| f).extractLsb' (k + j) n = c.extractLsb' j n := by
  ext i hi
  have hflag : f.getLsbD (k + j + i) = false :=
    Nat.testBit_lt_two_pow (hf.trans_le (Nat.pow_le_pow_right (by decide) (by omega)))
  have hcode : (c <<< k).getLsbD (k + j + i) = c.getLsbD (j + i) := by
    have hplace : k + j + i - k = j + i := by omega
    simp [hplace, show k + j + i < 8 by omega, show j + i < 8 by omega, show ¬ k + j + i < k by omega]
  rw [BitVec.getElem_extractLsb', BitVec.getElem_extractLsb', BitVec.getLsbD_or, hflag, hcode, Bool.or_false]

/-- Below bit `k` the byte holds the flags. -/
theorem getLsbD_shiftLeft_or {k i : ℕ} (c f : Byte) (hi : i < k) : ((c <<< k) ||| f).getLsbD i = f.getLsbD i := by
  simp [hi]

/-- The Line Input byte: a 3-bit code above a set bit (42_gain.md R168). -/
theorem lineInByte_fields {c : Byte} (hc : c.toNat < 8) :
    (lineInByte c).getLsbD 0 = true ∧ (lineInByte c).extractLsb' 1 3 = c.extractLsb' 0 3 ∧
      (lineInByte c).extractLsb' 4 4 = 0#4 := by
  have hhigh : c.extractLsb' 3 4 = 0#4 := by
    apply BitVec.eq_of_toNat_eq
    simp [Nat.shiftRight_eq_div_pow]
    omega
  exact ⟨getLsbD_shiftLeft_or (k := 1) c 1#8 (by decide), extractLsb'_shiftLeft_or (k := 1) (j := 0) c (by decide) (by decide),
    (extractLsb'_shiftLeft_or (k := 1) (j := 3) c (by decide) (by decide)).trans hhigh⟩

/-- An output byte: a code above two flag bits (42_gain.md R170, R171). -/
theorem outputByte_fields (c : Byte) {f : Byte} (hf : f.toNat < 4) :
    ((c <<< 2) ||| f).extractLsb' 2 6 = c.extractLsb' 0 6 ∧ ((c <<< 2) ||| f).getLsbD 1 = f.getLsbD 1 ∧
      ((c <<< 2) ||| f).getLsbD 0 = f.getLsbD 0 :=
  ⟨extractLsb'_shiftLeft_or (k := 2) (j := 0) c hf (by decide), getLsbD_shiftLeft_or c f (by decide),
    getLsbD_shiftLeft_or c f (by decide)⟩

theorem lineOutByte_fields (c : Byte) (mute : Bool) :
    (lineOutByte c mute).extractLsb' 2 6 = c.extractLsb' 0 6 ∧ (lineOutByte c mute).getLsbD 1 = !mute ∧
      (lineOutByte c mute).getLsbD 0 = false := by
  cases mute with
  | true => exact outputByte_fields c (f := 0#8) (by decide)
  | false => exact outputByte_fields c (f := 2#8) (by decide)

theorem hpOutByte_fields (c : Byte) (mute : Bool) :
    (hpOutByte c mute).extractLsb' 2 6 = c.extractLsb' 0 6 ∧ (hpOutByte c mute).getLsbD 1 = !mute ∧
      (hpOutByte c mute).getLsbD 0 = true := by
  cases mute with
  | true => exact outputByte_fields c (f := 1#8) (by decide)
  | false => exact outputByte_fields c (f := 3#8) (by decide)

/-- Settles O46: each packing is a code above its flag bits. -/
theorem bytePackings : Obligations.BytePackings := by
  refine ⟨fun c hc => ?_, fun c mute _ => ?_, rfl⟩
  · obtain ⟨hflag, hcode, hhigh⟩ := lineInByte_fields hc
    exact ⟨hflag, hcode, hhigh, rfl⟩
  · obtain ⟨hcode, hmute, hflag⟩ := lineOutByte_fields c mute
    exact ⟨hcode, hmute, hflag, hpOutByte_fields c mute⟩

-- ---------------------------------------------------------------- the two writes

/-- From `s` an operation takes two calls and then completes, having made these calls. -/
def RunsInThree (i : Instr) (s : State) (calls : List BusCall) : Prop :=
  ∃ t u v, exec i s = .next t ∧ exec i t = .next u ∧ exec i u = .next v ∧ Completes s calls v

/-- A gain operation that passes its check makes its two writes, left first, and completes (42_gain.md R173). Its registers and
bytes depend on the parameters alone, which no call changes. -/
theorem runsInThree_of_gain {i : Instr} {s : State} {check : Option FaultCode} (aL aR : Half) (bL bR : Byte)
    (hexec : ∀ t : State, t.cfg = s.cfg → exec i t = runOperation check (gainCall aL aR bL bR t) id t) (hfresh : s.fresh)
    (hcheck : check = none) : RunsInThree i s [s.memWrite aL [bL], s.memWrite aR [bR]] := by
  obtain ⟨hleft, hright, hdone⟩ := gain_steps aL aR bL bR hfresh hcheck
  exact ⟨_, _, _, (hexec s rfl).trans hleft, (hexec (s.makeCall _) rfl).trans hright,
    (hexec ((s.makeCall _).makeCall _) rfl).trans hdone, completesWith_two ..⟩

theorem inputCode_congr {s t : State} (h : t.cfg = s.cfg) (m : Bool) (p : Word) : inputCode t m p = inputCode s m p := by
  rw [inputCode, inputCode, h]

theorem outputCode_congr {s t : State} (h : t.cfg = s.cfg) (p : Word) : outputCode t p = outputCode s p := by
  rw [outputCode, outputCode, h]

/-- Settles O47: the check faults, or the operation makes the two writes of Line Input. -/
theorem setLineInputGainRun : Obligations.SetLineInputGainRun := fun l r m s hfresh =>
  ⟨fun hm hnan => hm ▸ runOperation_nan _ hfresh hnan,
    fun hok => runsInThree_of_gain s.cfg.lineInL s.cfg.lineInR (lineInByte (inputCode s m l)) (lineInByte (inputCode s m r))
      (fun t ht => by rw [exec_setLig, inputCode_congr ht, inputCode_congr ht, ht]) hfresh (inputCheck_eq_none hok)⟩

/-- Settles O48: the check faults, or the operation makes the two writes of Aux Input. -/
theorem setAuxInputGainRun : Obligations.SetAuxInputGainRun := fun l r m s hfresh =>
  ⟨fun hm hnan => hm ▸ runOperation_nan _ hfresh hnan,
    fun hok => runsInThree_of_gain s.cfg.auxInL s.cfg.auxInR (auxInByte (inputCode s m l)) (auxInByte (inputCode s m r))
      (fun t ht => by rw [exec_setAxg, inputCode_congr ht, inputCode_congr ht, ht]) hfresh (inputCheck_eq_none hok)⟩

/-- Settles O49: the check faults, muted or not, or the operation makes the two writes of Line Output. -/
theorem setLineOutputGainRun : Obligations.SetLineOutputGainRun := fun l r m s hfresh =>
  ⟨runOperation_nan _ hfresh,
    fun hok => runsInThree_of_gain s.cfg.lineOutL s.cfg.lineOutR (lineOutByte (outputCode s l) m) (lineOutByte (outputCode s r) m)
      (fun t ht => by rw [exec_setLog, outputCode_congr ht, outputCode_congr ht, ht]) hfresh (nanCheck_eq_none hok)⟩

/-- Settles O50: the check faults, muted or not, or the operation makes the two writes of Headphone Output. -/
theorem setHeadphoneGainRun : Obligations.SetHeadphoneGainRun := fun l r m s hfresh =>
  ⟨runOperation_nan _ hfresh,
    fun hok => runsInThree_of_gain s.cfg.hpOutL s.cfg.hpOutR (hpOutByte (outputCode s l) m) (hpOutByte (outputCode s r) m)
      (fun t ht => by rw [exec_setHpg, outputCode_congr ht, outputCode_congr ht, ht]) hfresh (nanCheck_eq_none hok)⟩

end Sys2Proof.Machine

/-! PROOFS of the statements on the Core/SRC Initializer (43_core_src.md): CFGSRC, INITCORE, DISPLL. -/

namespace Sys2Proof.Machine

-- ---------------------------------------------------------------- CFGSRC's check of fs

/-- CFGSRC's check passes the ten rates (43_core_src.md R192). -/
theorem fsCheck_eq_none {fs : Nat} (h : fs ∈ Config.fsSet48 ++ Config.fsSet441) : fsCheck fs = none := by
  obtain h48 | h441 := List.mem_append.mp h
  · simp [fsCheck, (familyOf_eq_f48_iff fs).mpr h48]
  · simp [fsCheck, (familyOf_eq_f441_iff fs).mpr h441]

theorem fsCheck_eq_badFs {fs : Nat} (h : fs ∉ Config.fsSet48 ++ Config.fsSet441) : fsCheck fs = some .badFs := by
  simp [fsCheck, familyOf_eq_none h]

-- ---------------------------------------------------------------- CFGSRC's commands

/-- Where SRC_WRITES gives a rate one list, that list is what CFGSRC issues, wherever in the record it stands. -/
theorem srcWritesFor_eq_of_mem {p : Params} {fs : Nat} {cmds : List (List Byte)} (hmem : (fs, cmds) ∈ p.srcWrites)
    (honly : ∀ e ∈ p.srcWrites, e.1 = fs → e.2 = cmds) : srcWritesFor p fs = cmds := by
  unfold srcWritesFor
  split
  next e hfind => exact honly e (List.mem_of_find?_eq_some hfind) (by simpa using List.find?_some hfind)
  next hfind => simpa using List.find?_eq_none.mp hfind _ hmem

/-- The calls of a CFGSRC issued in `s`: one write to DEV_ADDR per command of SRC_WRITES(fs). -/
def srcCalls (fs : Word) (s : State) : List BusCall := (srcWritesFor s.cfg fs.toNat).map s.sendCommand

@[simp] theorem length_srcCalls (fs : Word) (s : State) :
    (srcCalls fs s).length = (srcWritesFor s.cfg fs.toNat).length := List.length_map _

/-- `SendCommand` makes the same call whatever was called before: no call moves DEV_ADDR. -/
theorem State.sendCommand_makeCalls (s : State) (calls : List BusCall) (bytes : List Byte) :
    (s.makeCalls calls).sendCommand bytes = s.sendCommand bytes := by
  simp [State.sendCommand]

/-- What CFGSRC calls next does not depend on the calls made before, only on their number. -/
theorem cfgSrcCall_makeCalls (fs : Word) (s : State) (calls : List BusCall) (k : Nat) :
    cfgSrcCall fs (s.makeCalls calls) k = (srcCalls fs s)[k]? := by
  simp [cfgSrcCall, srcCalls, State.sendCommand_makeCalls]

/-- CFGSRC's step after some calls, while commands are left: the next command. -/
theorem exec_cfgSrc_call {fs : Word} {s : State} {calls : List BusCall} {c : BusCall} (hfresh : s.fresh)
    (hfs : fs.toNat ∈ Config.fsSet48 ++ Config.fsSet441) (hnext : (srcCalls fs s)[calls.length]? = some c) :
    exec (.cfgSrc fs) (s.makeCalls calls) = .next ((s.makeCalls calls).makeCall c) :=
  runOperation_first_ok id (fsCheck_eq_none hfs) (by simp [cfgSrcCall_makeCalls, hfresh.calls_eq_zero, hnext])

/-- CFGSRC's step after its last command, or at once when it has none: the completion. -/
theorem exec_cfgSrc_complete {fs : Word} {s : State} (hfresh : s.fresh)
    (hfs : fs.toNat ∈ Config.fsSet48 ++ Config.fsSet441) :
    exec (.cfgSrc fs) (s.makeCalls (srcCalls fs s)) = .next ((s.makeCalls (srcCalls fs s)).complete id) :=
  runOperation_complete _ id (.inr (fsCheck_eq_none hfs)) (by simp [cfgSrcCall_makeCalls, hfresh.calls_eq_zero])

/-- CFGSRC of a valid rate issues its commands in list order, one a step, and then completes. -/
theorem execN_cfgSrc {fs : Word} {s : State} (hfresh : s.fresh) (hfs : fs.toNat ∈ Config.fsSet48 ++ Config.fsSet441) :
    execN (.cfgSrc fs) ((srcWritesFor s.cfg fs.toNat).length + 1) s =
      .next ((s.makeCalls (srcCalls fs s)).complete id) := by
  rw [← length_srcCalls]
  refine execN_makeCalls (fun k hk => exec_cfgSrc_call hfresh hfs ?_) (exec_cfgSrc_complete hfresh hfs)
  rw [List.length_take_of_le hk.le, List.getElem?_eq_getElem hk]

/-- CFGSRC of a rate without commands completes in its first step. -/
theorem exec_cfgSrc_of_no_command {fs : Word} {s : State} (hfresh : s.fresh)
    (hfs : fs.toNat ∈ Config.fsSet48 ++ Config.fsSet441) (hnone : srcWritesFor s.cfg fs.toNat = []) :
    exec (.cfgSrc fs) s = .next (s.complete id) := by
  simpa [srcCalls, hnone] using exec_cfgSrc_complete hfresh hfs

/-- Settles O53: the fault of the check, the run of the commands, the same where the record gives the rate one list, and the
completion at once when there is none. -/
theorem configureSrcIssuesItsWritesInOrder : Obligations.ConfigureSrcIssuesItsWritesInOrder := by
  have hrun : ∀ (fs : Word) s, s.fresh → fs.toNat ∈ Config.fsSet48 ++ Config.fsSet441 →
      ∃ t, execN (.cfgSrc fs) ((srcWritesFor s.cfg fs.toNat).length + 1) s = .next t ∧
        Completes s ((srcWritesFor s.cfg fs.toNat).map s.sendCommand) t :=
    fun fs s hfresh hfs => ⟨_, execN_cfgSrc hfresh hfs, hfresh.completesWith id _⟩
  refine ⟨fun fs s hfresh hfs => ?_, hrun, fun fs cmds s hfresh hfs hmem honly => ?_, fun fs s hfresh hfs hnone => ?_⟩
  · exact runOperation_first_fault _ id hfresh.calls_eq_zero (fsCheck_eq_badFs hfs)
  · exact srcWritesFor_eq_of_mem hmem honly ▸ hrun fs s hfresh hfs
  · exact ⟨_, exec_cfgSrc_of_no_command hfresh hfs hnone, rfl, if_pos hfresh.calls_eq_zero, rfl, s.complete_run id⟩

-- ---------------------------------------------------------------- INITCORE

/-- INITCORE's call. -/
theorem exec_initCore_call {s : State} (hfresh : s.fresh) :
    exec .initCore s = .next (s.makeCall (s.memWrite s.cfg.clkctlAddr [s.cfg.clkctlDisable])) :=
  runOperation_first_ok id rfl (if_pos hfresh.calls_eq_zero)

/-- INITCORE completes after one call: the number of calls is then a successor, and the step computes. -/
theorem exec_initCore_complete (s : State) (c : BusCall) :
    exec .initCore (s.makeCall c) = .next ((s.makeCall c).complete id) := rfl

/-- Settles O51: one call and the completion. -/
theorem initCoreWritesTheClockControl : Obligations.InitCoreWritesTheClockControl := fun s hfresh =>
  ⟨_, _, exec_initCore_call hfresh, exec_initCore_complete s _, hfresh.completesWith id [_]⟩

-- ---------------------------------------------------------------- DISPLL

/-- An admitted PLL_DISABLE_PATTERN, byte by byte (43_core_src.md R191). -/
theorem Params.pllDisable_of_disableWf {p : Params} (h : p.disableWf = true) :
    ∃ b0 b1 b2 b3 b4 b5, p.pllDisable = [b0, b1, b2, b3, b4, b5] ∧ b5.getLsbD 0 = false := by
  obtain ⟨hlen, hlast⟩ : p.pllDisable.length = 6 ∧ ∀ b ∈ p.pllDisable.drop 5, b.getLsbD 0 = false := by
    simpa [Params.disableWf] using h
  match hbytes : p.pllDisable, hlen with
  | [b0, b1, b2, b3, b4, b5], _ => exact ⟨b0, b1, b2, b3, b4, b5, rfl, hlast b5 (by simp [hbytes])⟩

/-- DISPLL's call. -/
theorem exec_disPll_call {s : State} (hfresh : s.fresh) :
    exec .disPll s = .next (s.makeCall (s.memWrite s.cfg.pllAddr s.cfg.pllDisable)) :=
  runOperation_first_ok id rfl (if_pos hfresh.calls_eq_zero)

/-- DISPLL completes after one call; again the step computes. -/
theorem exec_disPll_complete (s : State) (c : BusCall) :
    exec .disPll (s.makeCall c) = .next ((s.makeCall c).complete id) := rfl

/-- Settles O52: the default pattern is admitted, an admitted one has its six bytes, and DISPLL is one call and the completion. -/
theorem disablePllWritesThePattern : Obligations.DisablePllWritesThePattern :=
  ⟨by decide, fun _ => Params.pllDisable_of_disableWf, fun s hfresh =>
    ⟨_, _, exec_disPll_call hfresh, exec_disPll_complete s _, hfresh.completesWith id [_]⟩⟩

end Sys2Proof.Machine

/-! PROOFS of the statements on the exceptions (60_exceptions.md): what raising a fault writes, when a fault can come. -/

namespace Sys2Proof.Machine

-- ---------------------------------------------------------------- fault entry

/-- Raising a fault writes STATUS.FAULT and STATUS.RUN only, not STATUS[7:6] (60_exceptions.md R216). -/
theorem State.raise_statusReserved (f : FaultCode) (s : State) :
    statusReserved (s.raise f).status = statusReserved s.status := by simp

/-- Settles O55: the codes compute, the written fields read back, and `raise` is an update of STATUS alone. -/
theorem raiseWritesTheCodeAndHalts : Obligations.RaiseWritesTheCodeAndHalts :=
  ⟨⟨rfl, rfl, rfl, rfl, rfl, rfl⟩,
    fun f s => ⟨s.raise_faultField f, s.raise_run f, s.raise_statusReserved f, rfl⟩⟩

-- ---------------------------------------------------------------- faults and calls

/-- An engine step that halts the engine is a fault entry before the operation's first call: a call keeps RUN and a completion
makes it IDLE. -/
theorem exec_halts {i : Instr} {s t : State} (h : exec i s = .next t) (hs : s.run ≠ .halted) (ht : t.run = .halted) :
    s.prog.calls = 0 ∧ ∃ f, t = s.raise f := by
  obtain ⟨f, h0, rfl⟩ | ⟨c, rfl⟩ | ⟨result, rfl⟩ := exec_cases h
  · exact ⟨h0, f, rfl⟩
  · exact absurd ht hs
  · simp at ht

/-- WAITLOCK, PROBE, INITCORE and DISPLL have no fault condition (60_exceptions.md R217). -/
theorem exec_eq_runOperation_unchecked {i : Instr}
    (hi : i = .waitLock ∨ i = .initCore ∨ i = .disPll ∨ ∃ addr, i = .probe addr) (s : State) :
    ∃ call result, exec i s = runOperation none call result s := by
  obtain rfl | rfl | rfl | ⟨addr, rfl⟩ := hi
  · exact ⟨_, _, exec_waitLock s⟩
  · exact ⟨_, _, exec_initCore s⟩
  · exact ⟨_, _, exec_disPll s⟩
  · exact ⟨_, _, exec_probe addr s⟩

/-- An operation without a fault condition keeps RUN in a call and makes it IDLE in its completion. -/
theorem runOperation_unchecked_run {call : Nat → Option BusCall} {result : Word → Word} {s t : State}
    (h : runOperation none call result s = .next t) : t.run = s.run ∨ t.run = .idle := by
  obtain ⟨f, -, hcheck, -⟩ | ⟨c, -, rfl⟩ | ⟨-, rfl⟩ := runOperation_cases h
  · cases hcheck
  · exact .inl (s.makeCall_run c)
  · exact .inr (s.complete_run result)

/-- Settles O56: the halting step is a fault entry, whose frame is that of `raise`, and four operations have no fault condition. -/
theorem faultsPrecedeEveryTransaction : Obligations.FaultsPrecedeEveryTransaction := by
  refine ⟨fun i s t h hs ht => ?_, fun i s t hi h hs => ?_⟩
  · obtain ⟨h0, f, rfl⟩ := exec_halts h hs ht
    exact ⟨h0, rfl, rfl, rfl, f, rfl⟩
  · obtain ⟨call, result, hexec⟩ := exec_eq_runOperation_unchecked hi s
    obtain hrun | hrun := runOperation_unchecked_run (hexec ▸ h)
    · exact hrun ▸ hs
    · simp [hrun]

end Sys2Proof.Machine

/-! PROOFS of the statements on the round trip of the command word (30_encoding.md R70 to R78). -/

namespace Sys2Proof

/-- A well-formed instruction is what its word decodes to, constructor by constructor. -/
theorem decode_encode {i : Instr} (hwf : i.wf = true) : decode (encode i) = some i := by
  cases i with
  | send offset length => exact Laws.RoundTrip.send offset length hwf
  | sendTbl base rowCount => exact Laws.RoundTrip.sendTbl base rowCount hwf
  | probe addr => exact Laws.RoundTrip.probe addr hwf
  | cfgPll fs mclock => exact Laws.RoundTrip.cfgPll fs mclock hwf
  | waitLock => exact Laws.RoundTrip.waitLock hwf
  | setLig left right mute => exact Laws.RoundTrip.setLig left right mute hwf
  | setAxg left right mute => exact Laws.RoundTrip.setAxg left right mute hwf
  | setLog left right mute => exact Laws.RoundTrip.setLog left right mute hwf
  | setHpg left right mute => exact Laws.RoundTrip.setHpg left right mute hwf
  | initCore => exact Laws.RoundTrip.initCore hwf
  | disPll => exact Laws.RoundTrip.disPll hwf
  | cfgSrc fs => exact Laws.RoundTrip.cfgSrc fs hwf

/-- Settles O7: the decoder keeps every bit of a legal word. -/
theorem encodeOfDecodeIsTheWord : Obligations.EncodeOfDecodeIsTheWord := fun _ _ => encode_of_decode

/-- Settles O6: the word of a well-formed instruction decodes to it, and whatever a word decodes to is well formed. -/
theorem decodeOfEncodeIsTheInstruction : Obligations.DecodeOfEncodeIsTheInstruction := by
  refine ⟨fun i hwf => decode_encode hwf, fun i hill w hdecode => ?_⟩
  obtain ⟨-, hwf⟩ := encode_of_decode hdecode
  exact absurd hwf (by simp [hill])

/-- Settles O11: the nine words are decoded. -/
theorem sampleWordsDecode : Obligations.SampleWordsDecode := by
  unfold Obligations.SampleWordsDecode
  decide

end Sys2Proof

/-! PROOFS of the statements on the invariant and on H (10_state.md R24, R28, R30; 20_memory.md R56, R62). -/

namespace Sys2Proof.Machine

-- ---------------------------------------------------------------- the invariant, update by update

/-- Before the first call of an operation, or outside one, the progress and H agree. -/
theorem State.Inv.of_fresh {s : State} (hstatus : s.statusLegal) (hcbuf : s.cbufLegal) (hfresh : s.fresh) : s.Inv := by
  have h0 := hfresh.calls_eq_zero
  exact ⟨hstatus, hcbuf, ⟨fun _ => hfresh, fun _ => hfresh, fun h => absurd h0 h⟩,
    by simp [h0], fun h => absurd h0 h, fun h => absurd h0 h⟩

theorem State.statusLegal.of_status_zero {s : State} (h : s.status = 0#8) : s.statusLegal := by
  simp only [State.statusLegal, State.run, State.faultField, h]
  decide

/-- Settles O3: no operation is in progress, CBUF lists nothing and STATUS is 0. -/
theorem resetSatisfiesTheMachineInvariant : Obligations.ResetSatisfiesTheMachineInvariant :=
  .of_fresh (.of_status_zero rfl) ⟨reset_cbuf_wf, fun _ h => absurd h List.not_mem_nil⟩ rfl

theorem State.Inv.popScript {s : State} (h : s.Inv) : s.popScript.Inv := h

/-- A reset leaves nothing of the state before it that the invariant speaks of. -/
theorem State.Inv.resetEngine (s : State) (strap : DevAddr) : (s.resetEngine strap).Inv :=
  .of_fresh (.of_status_zero rfl) ⟨reset_cbuf_wf, fun _ h => absurd h List.not_mem_nil⟩ rfl

/-- A command issue starts an operation in IDLE. -/
theorem State.Inv.issue {s : State} (h : s.Inv) (w : Command) (hrun : s.run = .idle) : (s.issue w).Inv := by
  obtain ⟨hstatus, hcbuf, -, -⟩ := h
  exact .of_fresh (hstatus.withRun (by simp [hrun]) (.inr rfl) rfl) hcbuf rfl

/-- A CBUF write keeps the canonical form and lists the written address at most, which lies inside CBUF. -/
theorem State.Inv.hostWrite {s : State} (h : s.Inv) {a : Nat} (b : Byte) (ha : a < s.cfg.cbufSize) : (s.hostWrite a b).Inv := by
  obtain ⟨hstatus, ⟨hwf, hinside⟩, hprogress, hhistory⟩ := h
  refine ⟨hstatus, ⟨Memory.wf_write _ a b hwf, fun c hc => ?_⟩, hprogress, hhistory⟩
  obtain rfl | hc := Memory.mem_write _ a b c hc
  · exact ha
  · exact hinside c hc

/-- An operation that has made a call makes RUN BUSY, so a fault of its first step finds the progress at its start. -/
theorem State.Inv.raise {s : State} (h : s.Inv) (f : FaultCode) (hrun : s.run = .busy) (h0 : s.prog.calls = 0) :
    (s.raise f).Inv := by
  obtain ⟨hstatus, hcbuf, ⟨-, hstart, -⟩, -⟩ := h
  exact .of_fresh ((StatusMove.raise (t := s.raise f) f hrun rfl rfl).statusLegal hstatus) hcbuf (hstart h0)

/-- A call is the last event of H, and the progress takes its return value and lock bit from that event. -/
theorem State.Inv.makeCall {s : State} (h : s.Inv) (c : BusCall) (hrun : s.run = .busy)
    (hlegal : (decodeFields s.opc s.opa s.opb).isSome = true) : (s.makeCall c).Inv := by
  obtain ⟨hstatus, hcbuf, -, hcount, -, -⟩ := h
  refine ⟨hstatus, hcbuf, ⟨fun hidle => absurd hrun hidle, fun h0 => ?_, fun _ => hlegal⟩, ?_, fun _ => ?_, fun _ => ?_⟩
  · simp at h0
  · simpa using hcount
  · simp
  · simp

theorem State.Inv.complete {s : State} (h : s.Inv) (result : Word → Word) (hrun : s.run = .busy) : (s.complete result).Inv := by
  obtain ⟨hstatus, hcbuf, -, -⟩ := h
  exact .of_fresh ((StatusMove.complete hrun rfl rfl).statusLegal hstatus) hcbuf rfl

-- ---------------------------------------------------------------- the invariant, step by step

/-- The engine's turn on a legal command. -/
theorem engineStep_legal {s : State} {i : Instr} (hrun : s.run = .busy) (hdecode : decodeFields s.opc s.opa s.opb = some i) :
    engineStep s = exec i s := by
  simp [engineStep, hrun, hdecode]

/-- A step in which the engine runs is the engine's turn, from `s` or with a `wait` used up. -/
theorem EngineRuns.engineStep {s t : State} (h : EngineRuns s t) :
    ∃ s0, (s0 = s ∨ s0 = s.popScript) ∧ s0.run = .busy ∧ engineStep s0 = .next t := by
  obtain ⟨hrun, s0, hs0, hturn⟩ := h
  have hrun0 : s0.run = .busy := by obtain rfl | rfl := hs0 <;> exact hrun
  have hdecode : decodeFields s0.opc s0.opa s0.opb = decodeFields s.opc s.opa s.opb := by obtain rfl | rfl := hs0 <;> rfl
  obtain ⟨i, hi, hexec⟩ | ⟨hnone, rfl⟩ := hturn
  · exact ⟨s0, hs0, hrun0, (engineStep_legal hrun0 (hdecode.trans hi)).trans hexec⟩
  · exact ⟨s0, hs0, hrun0, engineStep_illegal hrun0 (hdecode.trans hnone)⟩

/-- The turn of a BUSY engine keeps the invariant: an illegal command has made no call yet. -/
theorem engineStep_inv {s t : State} (hinv : s.Inv) (hrun : s.run = .busy) (h : engineStep s = .next t) : t.Inv := by
  obtain ⟨hidle, -⟩ | ⟨-, ⟨i, hi, hexec⟩ | ⟨hnone, rfl⟩⟩ := engineStep_cases h
  · simp [hidle] at hrun
  · obtain ⟨f, h0, rfl⟩ | ⟨c, rfl⟩ | ⟨result, rfl⟩ := exec_cases hexec
    · exact hinv.raise f hrun h0
    · exact hinv.makeCall c hrun (by simp [hi])
    · exact hinv.complete result hrun
  · have ⟨_, _, ⟨_, _, hlegal⟩, _⟩ := hinv
    have h0 : s.prog.calls = 0 := by
      by_contra h0
      simpa [hnone] using hlegal h0
    exact hinv.raise .illegalCommand hrun h0

/-- Settles O4: each update a step can be keeps the invariant. -/
theorem everyStepKeepsTheMachineInvariant : Obligations.EveryStepKeepsTheMachineInvariant := by
  intro s t hinv h
  obtain ⟨strap, rest, hs, rfl⟩ | ⟨w, rest, -, hrun, rfl⟩ | ⟨a, b, rest, -, -, ha, rfl⟩ |
    ⟨-, ⟨rfl, -⟩ | ⟨rest, -, rfl⟩⟩ | ⟨w, rest, -, -, rfl⟩ | hruns := step_cases h
  · exact .resetEngine s.popScript strap
  · exact hinv.popScript.issue w hrun
  · exact hinv.popScript.hostWrite b ha
  · exact hinv
  · exact hinv.popScript
  · exact hinv.popScript
  · obtain ⟨s0, hs0, hrun, hturn⟩ := hruns.engineStep
    have hinv0 : s0.Inv := by obtain rfl | rfl := hs0 <;> exact hinv
    exact engineStep_inv hinv0 hrun hturn

-- ---------------------------------------------------------------- H

/-- Settles O17: of the updates a step can be, only a call and a reset move H, and a `wait` used up does not enter the answer. -/
theorem historyGrowsByOneAnsweredCall : Obligations.HistoryGrowsByOneAnsweredCall := by
  intro s t h hreset
  obtain ⟨strap, rest, hs, -⟩ | ⟨w, rest, -, -, rfl⟩ | ⟨a, b, rest, -, -, -, rfl⟩ |
    ⟨-, ⟨rfl, -⟩ | ⟨rest, -, rfl⟩⟩ | ⟨w, rest, -, -, rfl⟩ | hruns := step_cases h
  · exact absurd hs (hreset strap rest)
  iterate 5 exact .inl rfl
  obtain ⟨hrun, s0, hs0, hstep⟩ := hruns.cases
  have hhist : s0.hist = s.hist := by obtain rfl | rfl := hs0 <;> rfl
  obtain ⟨f, rfl⟩ | ⟨c, rfl⟩ | ⟨result, rfl⟩ := hstep
  · exact .inl hhist
  · have hanswer : s0.answer c = s.answer c := by obtain rfl | rfl := hs0 <;> rfl
    have hrun0 : s0.run = .busy := by obtain rfl | rfl := hs0 <;> exact hrun
    exact .inr ⟨hrun, hrun0, c, by simp [hhist, hanswer], eventCall_answer s c⟩
  · exact .inl hhist

end Sys2Proof.Machine

/-! PROOFS of the statements on the host's moves and the engine's turn (70_reset_and_hazards.md R240, R248; 60_exceptions.md R218;
30_encoding.md R70). -/

namespace Sys2Proof.Machine

theorem State.popScript_eq {s : State} {m : HostMove} {rest : List HostMove} (hs : s.script = m :: rest) :
    s.popScript = { s with script := rest } := by
  rw [State.popScript, hs]; rfl

-- ---------------------------------------------------------------- the turn by the host's next move

theorem step_empty {s : State} (hs : s.script = []) : step s = engineStep s := by simp [step, machineStep, hs]

theorem step_issue {s : State} {w : Command} {rest : List HostMove} (hs : s.script = .issue w :: rest) :
    step s = hostIssue w s := by simp [step, machineStep, hs]

theorem step_writeCbuf {s : State} {a : Nat} {b : Byte} {rest : List HostMove} (hs : s.script = .writeCbuf a b :: rest) :
    step s = hostWriteCbuf a b s := by simp [step, machineStep, hs]

theorem step_reset {s : State} {strap : DevAddr} {rest : List HostMove} (hs : s.script = .reset strap :: rest) :
    step s = .next (s.popScript.resetEngine strap) := by simp [step, machineStep, hs]

theorem step_wait {s : State} {rest : List HostMove} (hs : s.script = .wait :: rest) : step s = hostWait s := by
  simp [step, machineStep, hs]

-- ---------------------------------------------------------------- reset

/-- Settles O2: the step is the reset itself, and no other move of STATUS leaves HALTED. -/
theorem hostResetRestoresEveryElement : Obligations.HostResetRestoresEveryElement := by
  refine ⟨fun s strap rest hs => ?_, fun s t h hrun ht => ?_⟩
  · exact ⟨_, step_reset hs, rfl, rfl, rfl, rfl, rfl, fun _ => rfl, rfl, rfl, by simp [hs]⟩
  · cases step_statusMove h with
    | reset hscript => exact hscript
    | keep hstatus =>
      have hkeep : t.run = s.run := congrArg statusRun hstatus
      exact absurd (hkeep.trans hrun) ht
    | issue _ hidle => simp [hrun] at hidle
    | complete hbusy => simp [hrun] at hbusy
    | raise _ hbusy => simp [hrun] at hbusy

-- ---------------------------------------------------------------- HALTED

/-- Settles O57: of the moves a step can be, HALTED leaves the reset, the CBUF write, and the moves that only use up the host's
list. -/
theorem haltedIsTerminal : Obligations.HaltedIsTerminal := by
  refine ⟨fun s t hrun h => ?_, fun s m rest hrun hs hm => ?_, fun s hrun hs => ?_⟩
  · obtain ⟨strap, rest, hs, -⟩ | ⟨w, rest, -, hidle, -⟩ | ⟨a, b, rest, hs, -, ha, rfl⟩ |
      ⟨-, ⟨rfl, hs⟩ | ⟨rest, hs, rfl⟩⟩ | ⟨w, rest, hs, -, rfl⟩ | ⟨hbusy, -⟩ := step_cases h
    · exact .inl ⟨strap, rest, hs⟩
    · simp [hrun] at hidle
    · exact .inr (.inl ⟨a, b, rest, hs, ha, by rw [State.popScript_eq hs]; rfl⟩)
    · simp [step_empty hs, engineStep, hrun] at h
    · exact .inr (.inr ⟨by simp [hs], rfl⟩)
    · exact .inr (.inr ⟨by simp [hs], rfl⟩)
    · simp [hrun] at hbusy
  · rw [← State.popScript_eq hs]
    obtain rfl | ⟨w, rfl⟩ := hm
    · simp [step_wait hs, hostWait, hrun]
    · simp [step_issue hs, hostIssue, hrun]
  · simp [step_empty hs, engineStep, hrun]

-- ---------------------------------------------------------------- the host's write of CBUF

/-- Outside BUSY a host write inside CBUF is made at once (70_reset_and_hazards.md R248). -/
theorem step_writeCbuf_of_not_busy {s : State} {a : Nat} {b : Byte} {rest : List HostMove}
    (hs : s.script = .writeCbuf a b :: rest) (hrun : s.run = .idle ∨ s.run = .halted) (ha : a < s.cfg.cbufSize) :
    step s = .next (s.popScript.hostWrite a b) := by
  obtain hrun | hrun := hrun <;> simp [step_writeCbuf hs, hostWriteCbuf, hrun, ha]

/-- Settles O58: the step is the write, and a read after it finds the byte at its address and the old byte elsewhere. -/
theorem hostWriteIsReadBack : Obligations.HostWriteIsReadBack := by
  intro s a b rest hs hrun ha
  refine ⟨_, step_writeCbuf_of_not_busy hs hrun ha, by simp, by simp, fun a' hne => ⟨?_, ?_⟩, ?_⟩
  · exact Memory.find_write_other _ _ _ _ hne
  · exact s.popScript.readCbuf_hostWrite_other a a' b hne
  · rw [State.popScript_eq hs]; rfl

-- ---------------------------------------------------------------- BUSY

/-- An instruction's fault condition, calls and RET do not read the host's moves. -/
theorem exec_eq_runOperation_any_script (i : Instr) (s : State) (moves : List HostMove) :
    ∃ check call result, exec i s = runOperation check call result s ∧
      exec i { s with script := moves } = runOperation check call result { s with script := moves } := by
  cases i <;> exact ⟨_, _, _, rfl, rfl⟩

/-- An operation's step does alike whatever the host's moves are, and keeps them. -/
theorem runOperation_any_script {check : Option FaultCode} {call : Nat → Option BusCall} {result : Word → Word} {s t : State}
    (moves : List HostMove) (h : runOperation check call result s = .next t) :
    runOperation check call result { s with script := moves } = .next { t with script := moves } := by
  unfold runOperation at h ⊢
  split at h
  · next f hcheck =>
    obtain rfl := Host.Outcome.next.inj h
    simp [hcheck, State.raise]
  · next hcheck =>
    split at h <;> obtain rfl := Host.Outcome.next.inj h
    · next c hcall => simp [hcheck, hcall, State.makeCall, State.answer]
    · next hcall => simp [hcheck, hcall, State.complete]

/-- The turn of a BUSY engine answers a next state, the same whatever the host's moves are, and keeps them. -/
theorem engineStep_busy_any_script {s : State} (hrun : s.run = .busy) :
    ∃ t, engineStep s = .next t ∧ ∀ moves, engineStep { s with script := moves } = .next { t with script := moves } := by
  have hrun' (moves : List HostMove) : ({ s with script := moves } : State).run = .busy := hrun
  cases hdecode : decodeFields s.opc s.opa s.opb with
  | none => exact ⟨_, engineStep_illegal hrun hdecode, fun moves => engineStep_illegal (hrun' moves) hdecode⟩
  | some i =>
    obtain ⟨t, ht⟩ := exec_next i s
    refine ⟨t, (engineStep_legal hrun hdecode).trans ht, fun moves => (engineStep_legal (hrun' moves) hdecode).trans ?_⟩
    obtain ⟨check, call, result, hs, hmoves⟩ := exec_eq_runOperation_any_script i s moves
    exact hmoves.trans (runOperation_any_script moves (hs ▸ ht))

/-- A host that would issue a command or write CBUF leaves a BUSY engine its turn. -/
theorem step_blocked {s : State} {m : HostMove} {rest : List HostMove} (hrun : s.run = .busy) (hs : s.script = m :: rest)
    (hm : (∃ w, m = .issue w) ∨ ∃ a b, m = .writeCbuf a b) : step s = engineStep s := by
  obtain ⟨w, rfl⟩ | ⟨a, b, rfl⟩ := hm
  · simp [step_issue hs, hostIssue, hrun]
  · simp [step_writeCbuf hs, hostWriteCbuf, hrun]

/-- Settles O59: the blocked step is the engine's turn, which does not read the host's moves. -/
theorem busyEngineBlocksTheHost : Obligations.BusyEngineBlocksTheHost := by
  intro s m rest hrun hs hm
  obtain ⟨t, ht, hmoves⟩ := engineStep_busy_any_script (s := { s with script := [] }) hrun
  exact ⟨t, (step_empty rfl).trans ht, (step_blocked hrun hs hm).trans (hmoves s.script)⟩

-- ---------------------------------------------------------------- issue and the step of the issued command

/-- Settles O12: the engine's turn decodes the latches, and an issue latches the fields of the instruction's word. -/
theorem stepRunsTheDecodedCommand : Obligations.StepRunsTheDecodedCommand := by
  refine ⟨fun s hs hrun => ?_, fun s i hs hrun hdecode => step_busy hs hrun hdecode, fun s i rest hs hrun hdecode => ?_,
    fun s i hs hwf => ?_⟩
  · simp [step_empty hs, engineStep, hrun]
  · rw [step_wait_busy hs hrun hdecode, State.popScript_eq hs]
  · rw [s.withFetchWord_of_empty _ hs, BitVec.ofNat_toNat, BitVec.setWidth_eq]
    exact step_busy hs (s.issue_run (encode i)) (decode_encode hwf)

/-- Settles O13: an IDLE engine takes the word, a BUSY one leaves it with the host, a HALTED one drops it. -/
theorem commandIssueLoadsTheLatches : Obligations.CommandIssueLoadsTheLatches := by
  refine ⟨fun s w rest hs hrun => ?_, fun s w rest t hs hrun h => ?_, fun s w rest hs hrun => ?_⟩
  · have hissue : step s = .next (s.popScript.issue w) := by simp [step_issue hs, hostIssue, hrun]
    exact ⟨_, hissue, rfl, rfl, rfl, by simp, by simp, rfl, rfl, rfl, rfl, rfl, rfl, by simp [hs]⟩
  · obtain ⟨t', -, hstep⟩ := busyEngineBlocksTheHost s _ rest hrun hs (.inl ⟨w, rfl⟩)
    obtain rfl := Host.Outcome.next.inj (h.symm.trans hstep)
    rfl
  · obtain ⟨-, hdropped, -⟩ := haltedIsTerminal
    exact hdropped s _ rest hrun hs (.inr ⟨w, rfl⟩)

end Sys2Proof.Machine

/-! PROOFS of the statements on every operation alike (10_state.md section 1; 20_memory.md R53, section 7; 41_pll.md R147): the frame,
the calls two engines make. -/

namespace Sys2Proof.Machine

-- ---------------------------------------------------------------- the frame

/-- A completion writes RET, CP and STATUS.RUN only, of what an operation may write. -/
theorem State.complete_untouched (result : Word → Word) (s : State) : Untouched s (s.complete result) :=
  ⟨rfl, rfl, rfl, rfl, rfl, fun _ => rfl, by simp, rfl, rfl⟩

/-- A fault entry writes STATUS.FAULT and STATUS.RUN only (60_exceptions.md R216). -/
theorem State.raise_untouched (f : FaultCode) (s : State) : Untouched s (s.raise f) :=
  ⟨rfl, rfl, rfl, rfl, rfl, fun _ => rfl, s.raise_statusReserved f, rfl, rfl⟩

theorem State.makeCall_callStep (c : BusCall) (s : State) : CallStep s (s.makeCall c) := ⟨⟨c, rfl⟩, rfl, rfl, rfl⟩

theorem State.complete_completionStep (result : Word → Word) (s : State) : CompletionStep s (s.complete result) :=
  ⟨rfl, s.complete_faultField result, s.complete_run result, rfl⟩

theorem State.raise_faultStep (f : FaultCode) (s : State) : FaultStep s (s.raise f) :=
  ⟨rfl, rfl, rfl, s.raise_run f, by simp [faultCode_ne_zero]⟩

/-- Every operation has the frame: each of the three things its step can be has it. -/
theorem operationFrame (i : Instr) : OperationFrame i := by
  intro s t h
  obtain ⟨f, -, rfl⟩ | ⟨c, rfl⟩ | ⟨result, rfl⟩ := exec_cases h
  · exact ⟨s.raise_untouched f, .inr (.inr (s.raise_faultStep f))⟩
  · exact ⟨s.makeCall_untouched c, .inl (s.makeCall_callStep c)⟩
  · exact ⟨s.complete_untouched result, .inr (.inl (s.complete_completionStep result))⟩

/-- Settles O14: by the frame of every operation. -/
theorem sequencerAndInitializerFrame : Obligations.SequencerAndInitializerFrame :=
  ⟨fun _ _ => operationFrame _, fun _ _ => operationFrame _, fun _ => operationFrame _, operationFrame _, operationFrame _,
    fun _ => operationFrame _⟩

/-- Settles O15: by the frame of every operation. -/
theorem pllFrame : Obligations.PllFrame := ⟨fun _ _ => operationFrame _, operationFrame _⟩

/-- Settles O16: by the frame of every operation. -/
theorem gainFrame : Obligations.GainFrame :=
  ⟨fun _ _ _ => operationFrame _, fun _ _ _ => operationFrame _, fun _ _ _ => operationFrame _, fun _ _ _ => operationFrame _⟩

-- ---------------------------------------------------------------- the calls a step makes

/-- The calls that an operation's step adds to H: none when it faults or completes, the next one otherwise. -/
theorem runOperation_calls {check : Option FaultCode} {call : Nat → Option BusCall} {result : Word → Word} {s t : State}
    (h : runOperation check call result s = .next t) :
    (t.hist.drop s.hist.length).map eventCall =
      if s.prog.calls = 0 ∧ check ≠ none then [] else (call s.prog.calls).toList := by
  unfold runOperation at h
  split at h
  · next f hcheck =>
    obtain rfl := Host.Outcome.next.inj h
    have hfirst : s.prog.calls = 0 ∧ check = some f := by simpa using hcheck
    simp [hfirst]
  · next hcheck =>
    have hpass : ¬ (s.prog.calls = 0 ∧ check ≠ none) := by simpa using hcheck
    rw [if_neg hpass]
    split at h <;> obtain rfl := Host.Outcome.next.inj h
    · next c hcall => simp [hcall]
    · next hcall => simp [hcall]

-- The parts of the operations that `SameInputs` fixes.
section SameInputs

variable {s t : State} (h : SameInputs s t)
include h

theorem SameInputs.sendCommand_eq (bytes : List Byte) : s.sendCommand bytes = t.sendCommand bytes := by
  obtain ⟨hdev, -⟩ := h
  rw [State.sendCommand, State.sendCommand, hdev]

theorem SameInputs.memWrite_eq (address : Half) (v : List Byte) : s.memWrite address v = t.memWrite address v :=
  h.sendCommand_eq _

theorem SameInputs.readCbufRange_eq (offset n : Nat) : s.readCbufRange offset n = t.readCbufRange offset n := by
  obtain ⟨-, -, -, -, hread⟩ := h
  simp [State.readCbufRange, hread]

theorem SameInputs.rangeCheck_eq (start n : Nat) : rangeCheck s start n = rangeCheck t start n := by
  obtain ⟨-, hcfg, -⟩ := h
  rw [rangeCheck, rangeCheck, hcfg]

theorem SameInputs.sendCall_eq (offset length : Word) : sendCall offset length s = sendCall offset length t := by
  funext k
  rw [sendCall, sendCall, h.readCbufRange_eq, h.sendCommand_eq]

theorem SameInputs.sendTblCall_eq (base rowCount : Word) : sendTblCall base rowCount s = sendTblCall base rowCount t := by
  have ⟨_, hcfg, _⟩ := h
  funext k
  rw [sendTblCall, sendTblCall, h.readCbufRange_eq, h.sendCommand_eq, hcfg]

theorem SameInputs.cfgPllCall_eq (fs mclock : Word) : cfgPllCall fs mclock s = cfgPllCall fs mclock t := by
  have ⟨_, hcfg, _⟩ := h
  funext k
  simp only [cfgPllCall, h.memWrite_eq, hcfg]

theorem SameInputs.waitLockCall_eq : waitLockCall s = waitLockCall t := by
  obtain ⟨hdev, hcfg, -, hlocked, -⟩ := h
  funext k
  rw [waitLockCall, waitLockCall, State.memReadData, State.memReadAddress, hdev, hcfg, hlocked]
  rfl

theorem SameInputs.gainCall_eq (aL aR : Half) (bL bR : Byte) : gainCall aL aR bL bR s = gainCall aL aR bL bR t := by
  funext k
  rw [gainCall, gainCall, h.memWrite_eq, h.memWrite_eq]

theorem SameInputs.cfgSrcCall_eq (fs : Word) : cfgSrcCall fs s = cfgSrcCall fs t := by
  have ⟨_, hcfg, _⟩ := h
  funext k
  simp only [cfgSrcCall, h.sendCommand_eq, hcfg]

/-- Of two engines with the same inputs a command runs the same operation: fault condition, calls and RET read nothing else. -/
theorem SameInputs.exec_eq_runOperation (i : Instr) : ∃ check call result,
    exec i s = runOperation check call result s ∧ exec i t = runOperation check call result t := by
  have ⟨_, hcfg, _⟩ := h
  cases i with
  | send => exact ⟨_, _, _, exec_send .., by rw [h.rangeCheck_eq, h.sendCall_eq, exec_send]⟩
  | sendTbl => exact ⟨_, _, _, exec_sendTbl .., by rw [h.rangeCheck_eq, h.sendTblCall_eq, hcfg, exec_sendTbl]⟩
  | probe => exact ⟨_, _, _, exec_probe .., exec_probe ..⟩
  | cfgPll => exact ⟨_, _, _, exec_cfgPll .., by rw [h.cfgPllCall_eq, exec_cfgPll]⟩
  | waitLock => exact ⟨_, _, _, exec_waitLock s, by rw [h.waitLockCall_eq, exec_waitLock]⟩
  | setLig =>
    exact ⟨_, _, _, exec_setLig .., by rw [h.gainCall_eq, inputCode_congr hcfg, inputCode_congr hcfg, hcfg, exec_setLig]⟩
  | setAxg =>
    exact ⟨_, _, _, exec_setAxg .., by rw [h.gainCall_eq, inputCode_congr hcfg, inputCode_congr hcfg, hcfg, exec_setAxg]⟩
  | setLog =>
    exact ⟨_, _, _, exec_setLog .., by rw [h.gainCall_eq, outputCode_congr hcfg, outputCode_congr hcfg, hcfg, exec_setLog]⟩
  | setHpg =>
    exact ⟨_, _, _, exec_setHpg .., by rw [h.gainCall_eq, outputCode_congr hcfg, outputCode_congr hcfg, hcfg, exec_setHpg]⟩
  | initCore => exact ⟨_, _, _, exec_initCore s, by rw [h.memWrite_eq, hcfg, exec_initCore]⟩
  | disPll => exact ⟨_, _, _, exec_disPll s, by rw [h.memWrite_eq, hcfg, exec_disPll]⟩
  | cfgSrc => exact ⟨_, _, _, exec_cfgSrc .., by rw [h.cfgSrcCall_eq, exec_cfgSrc]⟩

end SameInputs

/-- Settles O20: the two engines run one operation, at the same call. -/
theorem sameCommandEmitsTheSameCalls : Obligations.SameCommandEmitsTheSameCalls := by
  intro i s t s' t' hsame hs ht
  obtain ⟨check, call, result, hexec, hexec'⟩ := hsame.exec_eq_runOperation i
  obtain ⟨-, -, hcalls, -⟩ := hsame
  rw [runOperation_calls (hexec ▸ hs), runOperation_calls (hexec' ▸ ht), hcalls]

-- ---------------------------------------------------------------- WAITLOCK and the return values

/-- WAITLOCK does not complete before its first call. -/
theorem waitLockCall_zero (s : State) : waitLockCall s 0 ≠ none := by simp [waitLockCall]

/-- Settles O38: the last return value chooses no call, and at a completion it goes to RET and nowhere else. -/
theorem waitLockIgnoresReturnValues : Obligations.WaitLockIgnoresReturnValues := by
  intro s r
  cases hcall : waitLockCall s s.prog.calls with
  | some c =>
    refine ⟨s.makeCall c, _, runOperation_first_ok id rfl hcall, runOperation_first_ok id rfl hcall, fun _ => rfl, ?_⟩
    exact fun hcp => absurd rfl hcp
  | none =>
    have h0 : s.prog.calls ≠ 0 := fun h0 => waitLockCall_zero s (h0 ▸ hcall)
    refine ⟨s.complete id, _, runOperation_complete none id (.inr rfl) hcall, runOperation_complete none id (.inr rfl) hcall,
      fun hcp => absurd hcp (s.complete_cp_ne id), fun _ => ?_⟩
    simp [State.complete, h0]

end Sys2Proof.Machine

/-! PROOFS of the statements on the gain codes in both evaluation modes (42_gain.md R166, R179). -/

namespace Sys2Proof.Machine

-- ---------------------------------------------------------------- the intervals of the codes

theorem outCodeExact_le (p : Word) : outCodeExact p ≤ 63 := List.countP_le_length

/-- An output code is at most 63 for every pattern, in both evaluation modes (42_gain.md R163). -/
theorem outCode_le (mode : GainEval) (p : Word) : outCode mode p ≤ 63 := by
  cases mode with
  | exactReal => exact outCodeExact_le p
  | binary32 =>
    by_cases hp : f32Exponent p = 255
    · exact outCode_of_not_finite .binary32 hp ▸ outCodeExact_le p
    · show outCodeF32 p ≤ 63
      rw [outCodeF32, if_neg hp]
      generalize rne32 (f32Scaled p + 57 * f32One) 1 / f32One = v
      have hbounds := clamp_bounds (v := v) (a := 0) (b := 63) (by decide)
      omega

/-- Settles O42: the counts of the comparators and the clamps are bounded. -/
theorem gainCodesStayInTheirInterval : Obligations.GainCodesStayInTheirInterval := by
  intro mode p
  obtain ⟨hlow, hhigh⟩ := inCode_mem mode p
  exact ⟨hlow, hhigh, outCode_le mode p⟩

-- ---------------------------------------------------------------- the codes of the two evaluation modes

/-- `q` is a floor like `n` but taken after rounding: whatever number of `a..b` the floor `n` reaches, `q` reaches, and where `n`
stays below one, `q` does not pass it. -/
def RoundedFloor (a b n q : ℤ) : Prop := ∀ k, a ≤ k → k ≤ b → (k ≤ n → k ≤ q) ∧ (n < k → q ≤ k)

/-- Clamped to `a..b`, the rounded value is the exact one or the next. -/
theorem RoundedFloor.clamp_eq_or_next {a b n q : ℤ} (h : RoundedFloor a b n q) (hab : a ≤ b) :
    clamp n a b ≤ clamp q a b ∧ clamp q a b ≤ clamp n a b + 1 := by
  have hmin := h a le_rfl hab
  have hmax := h b hab le_rfl
  have hself := h n
  have hnext := h (n + 1)
  unfold clamp
  split_ifs <;> omega

/-- The floor of a rounded quotient: rounding moves the quotient past no whole number of dB. -/
theorem floor_rne32 {num k : ℤ} {den : ℕ} (hd : 0 < den) (hk : k.natAbs < 2 ^ 24) :
    (k * f32One * den ≤ num → k ≤ rne32 num den / f32One) ∧ (num ≤ k * f32One * den → rne32 num den / f32One ≤ k) := by
  have hone : 0 < f32One := by decide
  refine ⟨fun h => (Int.le_ediv_iff_mul_le hone).mpr (le_rne32 hd hk h), fun h => ?_⟩
  exact Int.ediv_le_of_le_mul hone (rne32_le hd hk h)

/-- A gain plus `c` reaches `k` exactly when its scaled integer does. -/
theorem mul_f32One_le_scaled_add_iff {p : Word} (hp : f32Finite p) (k c : ℤ) :
    k * f32One ≤ f32Scaled p + c * f32One ↔ (k : ℚ) ≤ f32Real p + c := by
  have hcompare : (k - c) * f32One ≤ f32Scaled p ↔ ((k - c : ℤ) : ℚ) ≤ f32Real p := by
    rw [← f32AtLeast_iff hp, f32AtLeast, if_neg hp, decide_eq_true_iff]
  rw [← sub_le_iff_le_add, ← sub_mul, hcompare]
  push_cast
  exact sub_le_iff_le_add

/-- The output schemes round once, the sum `g + 57`. -/
theorem roundedFloor_out {p : Word} (hp : f32Finite p) :
    RoundedFloor 0 63 ⌊f32Real p + 57⌋ (rne32 (f32Scaled p + 57 * f32One) 1 / f32One) := by
  intro k h0 h63
  have hreach : k ≤ ⌊f32Real p + 57⌋ ↔ k * f32One ≤ f32Scaled p + 57 * f32One := by
    rw [Int.le_floor, mul_f32One_le_scaled_add_iff hp]; norm_cast
  obtain ⟨hle, hge⟩ := floor_rne32 (num := f32Scaled p + 57 * f32One) (k := k) (den := 1) one_pos (by omega)
  rw [Nat.cast_one, mul_one] at hle hge
  exact ⟨fun h => hle (hreach.mp h), fun h => hge (not_le.mp (mt hreach.mpr (not_le.mpr h))).le⟩

/-- The input schemes round the sum `g + 12` and then its third: the sum is on the side of `3 k` that its third is of `k`. -/
theorem roundedFloor_in {p : Word} (hp : f32Finite p) :
    RoundedFloor 0 6 ⌊(f32Real p + 12) / 3⌋ (rne32 (rne32 (f32Scaled p + 12 * f32One) 1) 3 / f32One) := by
  intro k h0 h6
  have hreach : k ≤ ⌊(f32Real p + 12) / 3⌋ ↔ 3 * k * f32One ≤ f32Scaled p + 12 * f32One := by
    rw [Int.le_floor, mul_f32One_le_scaled_add_iff hp, le_div_iff₀ (by norm_num), mul_comm]; norm_cast
  have hthird : k * f32One * (3 : ℕ) = 3 * k * f32One := by push_cast; ring
  have hsmall : (3 * k).natAbs < 2 ^ 24 := by omega
  obtain ⟨hle, hge⟩ := floor_rne32 (num := rne32 (f32Scaled p + 12 * f32One) 1) (k := k) (den := 3) (by decide) (by omega)
  rw [hthird] at hle hge
  refine ⟨fun h => hle (le_rne32 one_pos hsmall ?_), fun h => hge (rne32_le one_pos hsmall ?_)⟩ <;>
    rw [Nat.cast_one, mul_one]
  · exact hreach.mp h
  · exact (not_le.mp (mt hreach.mpr (not_le.mpr h))).le

theorem inCodeF32_eq_clamp {p : Word} (hp : f32Finite p) :
    (inCodeF32 p : ℤ) = clamp (rne32 (rne32 (f32Scaled p + 12 * f32One) 1) 3 / f32One + 1) 1 7 := by
  rw [inCodeF32, if_neg hp]
  exact Int.toNat_of_nonneg (zero_le_one.trans (clamp_bounds (by decide)).1)

theorem outCodeF32_eq_clamp {p : Word} (hp : f32Finite p) :
    (outCodeF32 p : ℤ) = clamp (rne32 (f32Scaled p + 57 * f32One) 1 / f32One) 0 63 := by
  rw [outCodeF32, if_neg hp]
  exact Int.toNat_of_nonneg (clamp_bounds (by decide)).1

/-- Settles O43: both codes are clamps, of a floor and of the floor of the rounded value. -/
theorem binaryEvaluationIsAtMostOneCodeHigher : Obligations.BinaryEvaluationIsAtMostOneCodeHigher := by
  intro p hp
  have hin := (roundedFloor_in hp).clamp_eq_or_next (by decide)
  have hout := (roundedFloor_out hp).clamp_eq_or_next (by decide)
  have hinExact := (inCodeExact_eq_clamp hp).trans (clamp_add _ 0 6 1)
  have hinF32 := (inCodeF32_eq_clamp hp).trans (clamp_add _ 0 6 1)
  have houtExact := outCodeExact_eq_clamp hp
  have houtF32 := outCodeF32_eq_clamp hp
  simp only [inCode, outCode]
  omega

end Sys2Proof.Machine

/-! PROOF of the statement on the form of SRC_WRITES (43_core_src.md R193, log entry 16). -/

namespace Sys2Proof.Machine

/-- Settles O54: the search of the record stops at the first entry of the rate. -/
theorem srcWritesAreTheFirstEntryOfTheRate : Obligations.SrcWritesAreTheFirstEntryOfTheRate := by
  intro p fs
  refine ⟨fun before cmds after hrecord hbefore => ?_, fun hnone => ?_, rfl⟩
  · have hskip : before.find? (fun e => e.1 == fs) = none := by simpa using hbefore
    simp [srcWritesFor, hrecord, List.find?_append, hskip]
  · have hmissing : p.srcWrites.find? (fun e => e.1 == fs) = none := by simpa using hnone
    simp [srcWritesFor, hmissing]

end Sys2Proof.Machine
